-- ==== Sys2Proof/Word.lean ====
section
/-! DEFINITION. The word types of the Citadel KDX engine (spec/00_scope.md R5, R7). -/

namespace Sys2Proof

/-- A buffer byte, a stream group of eight bits, `DOUT` (R20, R72). -/
abbrev Byte := BitVec 8

/-- A register index of the host port, `IDXW = 8` (R5, R60). -/
abbrev Index := BitVec 8

/-- The data of one port access, `PORTW = 64` (R5, R61). -/
abbrev Data := BitVec 64

/-- A command word `CW` (R80). -/
abbrev CmdWord := BitVec 32

end Sys2Proof
end

