-- ==== Sys2Proof/Syntax.lean ====
section
/-! DEFINITION. The twenty commands of the engine (spec/30_encoding.md R83), one constructor per row of
spec/opcode_table.json. An operand has exactly the bits its format gives it (R81): one for I1, eight for I8, sixteen for
I16, so no ill-formed command can be written down (log 10). -/

namespace Sys2Proof

/-- A command (R83). -/
inductive Instr where
  /-- 0x00, format Z: completes (R100). -/
  | nop
  /-- 0x01, format Z: modular exponentiation of `OPA`, `OPE`, `OPM` into `RES` (R106). -/
  | modpow
  /-- 0x10, format Z: clears `ACC` and `RCNT` (R116). -/
  | hinit
  /-- 0x11, format I16: absorbs one character code (R117). -/
  | habs (code : BitVec 16)
  /-- 0x12, format Z: folds the text of `TXT` into `ACC`, from 0 (R118). -/
  | hfeed
  /-- 0x13, format Z: step b of a round on `ACC` (R119). -/
  | hexp
  /-- 0x14, format Z: step c of a round on `ACC` (R120). -/
  | hmix
  /-- 0x15, format Z: step d of a round, `ACC` to `V0..V2` (R130). -/
  | hmat
  /-- 0x16, format Z: step e of a round, `V0..V2` to `TXT`, `TLEN` (R132). -/
  | hstr
  /-- 0x17, format Z: steps b to e, counted in `RCNT` (R141). -/
  | hfin
  /-- 0x18, format I16: `n` whole rounds (R143). -/
  | rounds (n : BitVec 16)
  /-- 0x19, format Z: all 20000 rounds and the key load (R144). -/
  | derive
  /-- 0x1A, format Z: the text becomes the key (R145). -/
  | kload
  /-- 0x20, format Z: clears `POS` (R156). -/
  | sstart
  /-- 0x21, format I1: one bit through the stream cipher (R157). -/
  | sbit (b : BitVec 1)
  /-- 0x22, format I8: eight bits through the stream cipher, bit 7 first (R159). -/
  | sxor (x : Byte)
  /-- 0x23, format Z: checks that `POS` is a multiple of 8 (R161). -/
  | schk
  /-- 0x28, format Z: clears `DPOS` (R171). -/
  | dstart
  /-- 0x29, format I1: one bit through the block diffuser (R172). -/
  | dbit (b : BitVec 1)
  /-- 0x2A, format I8: eight bits through the block diffuser, bit 7 first (R173). -/
  | dxor (x : Byte)
deriving DecidableEq, Repr

end Sys2Proof
end

