-- ==== Sys2Proof/WellFormed.lean ====
section
/-! DEFINITION. Which operands a command admits (spec/30_encoding.md R81, R82) and which assembler lines are well
formed (R86: "An operand outside the format's range is an assembly error, not a command"). The check is on an assembler
line, whose operand is any numeral: a command of type `Instr` has its operand's exact width by construction (log 10).
Which WORDS are legal (R84) is `legal` of Decode.lean. -/

namespace Sys2Proof

/-- The four formats (R81). -/
inductive Format where
  | z | i1 | i8 | i16
deriving DecidableEq, Repr

/-- How many of the low bits of `imm` are the operand (R81). -/
def Format.operandBits : Format → Nat
  | .z => 0
  | .i1 => 1
  | .i8 => 8
  | .i16 => 16

/-- The numeral `n` is an operand of the format: it is below `2 ^ operandBits`, so every bit of `imm` that must be 0 is
0 (R81, R82). For format Z, which has no operand, `n` stands for the whole `imm` and must be 0. -/
def Format.admits (f : Format) (n : Nat) : Bool := n < 2 ^ f.operandBits

/-- The mnemonics of R83, the names an assembler line may begin with. -/
inductive Mnemonic where
  | nop | modpow | hinit | habs | hfeed | hexp | hmix | hmat | hstr | hfin | rounds | derive | kload
  | sstart | sbit | sxor | schk | dstart | dbit | dxor
deriving DecidableEq, Repr

/-- All mnemonics, in opcode order. -/
def Mnemonic.all : List Mnemonic :=
  [.nop, .modpow, .hinit, .habs, .hfeed, .hexp, .hmix, .hmat, .hstr, .hfin, .rounds, .derive, .kload,
   .sstart, .sbit, .sxor, .schk, .dstart, .dbit, .dxor]

/-- The format column of R83. -/
def Mnemonic.format : Mnemonic → Format
  | .habs | .rounds => .i16
  | .sxor | .dxor => .i8
  | .sbit | .dbit => .i1
  | .nop | .modpow | .hinit | .hfeed | .hexp | .hmix | .hmat | .hstr | .hfin | .derive | .kload
  | .sstart | .schk | .dstart => .z

/-- An assembler line `MNEMONIC` or `MNEMONIC operand` (R86); a line without an operand has operand 0. -/
structure AsmLine where
  mnemonic : Mnemonic
  operand : Nat
deriving DecidableEq, Repr

/-- The line assembles to a command: its operand is in its format's range (R86). -/
def AsmLine.WellFormed (l : AsmLine) : Bool := l.mnemonic.format.admits l.operand

/-- The mnemonic of a command. -/
def Instr.mnemonic : Instr → Mnemonic
  | .nop => .nop
  | .modpow => .modpow
  | .hinit => .hinit
  | .habs _ => .habs
  | .hfeed => .hfeed
  | .hexp => .hexp
  | .hmix => .hmix
  | .hmat => .hmat
  | .hstr => .hstr
  | .hfin => .hfin
  | .rounds _ => .rounds
  | .derive => .derive
  | .kload => .kload
  | .sstart => .sstart
  | .sbit _ => .sbit
  | .sxor _ => .sxor
  | .schk => .schk
  | .dstart => .dstart
  | .dbit _ => .dbit
  | .dxor _ => .dxor

/-- The operand of a command as an unsigned number, 0 where it has none (R82). -/
def Instr.operand : Instr → Nat
  | .habs c => c.toNat
  | .rounds n => n.toNat
  | .sbit b => b.toNat
  | .sxor x => x.toNat
  | .dbit b => b.toNat
  | .dxor x => x.toNat
  | .nop | .modpow | .hinit | .hfeed | .hexp | .hmix | .hmat | .hstr | .hfin | .derive | .kload
  | .sstart | .schk | .dstart => 0

/-- The assembler line that writes the command. -/
def Instr.line (i : Instr) : AsmLine := ⟨i.mnemonic, i.operand⟩

/-- The command's operand fits its format (R81). Every `Instr` meets this (Laws/PerInstr.lean). -/
def Instr.WellFormed (i : Instr) : Bool := i.line.WellFormed

end Sys2Proof
end

