-- ==== Sys2Proof/Decode.lean ====
section
/-! DEFINITION. The decoder, the encoder and the legality of a command word (spec/30_encoding.md R80 to R85), and the
assembler of R86. -/

namespace Sys2Proof

/-- The opcode field, bits 31:24 (R80). -/
def opField (w : CmdWord) : BitVec 8 := w.extractLsb' 24 8
/-- The field that must be zero, bits 23:16 (R80). -/
def zField (w : CmdWord) : BitVec 8 := w.extractLsb' 16 8
/-- The immediate field, bits 15:0 (R80). -/
def immField (w : CmdWord) : BitVec 16 := w.extractLsb' 0 16

/-- Why a word is no command (R84). -/
inductive DecodeError where
  /-- The opcode is not one of the twenty. -/
  | unknownOpcode
  /-- Bits 23:16 are not all 0. -/
  | reservedField
  /-- A bit of `imm` outside the format's operand is 1. -/
  | operandBits
deriving DecidableEq, Repr

/-- The opcode column of R83. -/
def Mnemonic.op : Mnemonic → BitVec 8
  | .nop => 0x00
  | .modpow => 0x01
  | .hinit => 0x10
  | .habs => 0x11
  | .hfeed => 0x12
  | .hexp => 0x13
  | .hmix => 0x14
  | .hmat => 0x15
  | .hstr => 0x16
  | .hfin => 0x17
  | .rounds => 0x18
  | .derive => 0x19
  | .kload => 0x1A
  | .sstart => 0x20
  | .sbit => 0x21
  | .sxor => 0x22
  | .schk => 0x23
  | .dstart => 0x28
  | .dbit => 0x29
  | .dxor => 0x2A

/-- The command of an opcode, if it is one of the twenty (R83, R84). -/
def mnemonicOfOp (op : BitVec 8) : Option Mnemonic := Mnemonic.all.find? (fun m => m.op == op)

/-- The command of a mnemonic and an immediate field, which keeps the field's operand bits (R81, R82). -/
def Mnemonic.instr (m : Mnemonic) (imm : BitVec 16) : Instr :=
  match m with
  | .nop => .nop
  | .modpow => .modpow
  | .hinit => .hinit
  | .habs => .habs imm
  | .hfeed => .hfeed
  | .hexp => .hexp
  | .hmix => .hmix
  | .hmat => .hmat
  | .hstr => .hstr
  | .hfin => .hfin
  | .rounds => .rounds imm
  | .derive => .derive
  | .kload => .kload
  | .sstart => .sstart
  | .sbit => .sbit (imm.extractLsb' 0 1)
  | .sxor => .sxor (imm.extractLsb' 0 8)
  | .schk => .schk
  | .dstart => .dstart
  | .dbit => .dbit (imm.extractLsb' 0 1)
  | .dxor => .dxor (imm.extractLsb' 0 8)

/-- The decoder, total on command words: the command, or the first of the reasons of R84 for which the word is none. -/
def decode (w : CmdWord) : Except DecodeError Instr :=
  match mnemonicOfOp (opField w) with
  | none => .error .unknownOpcode
  | some m =>
    if zField w ≠ 0 then .error .reservedField
    else if m.format.admits (immField w).toNat then .ok (m.instr (immField w))
    else .error .operandBits

/-- `legal(CW)`, the formula of R84 as it stands there. -/
def legal (w : CmdWord) : Bool :=
  zField w == 0 &&
  ((([0x00, 0x01, 0x10, 0x12, 0x13, 0x14, 0x15, 0x16, 0x17, 0x19, 0x1A, 0x20, 0x23, 0x28] : List (BitVec 8)).contains
        (opField w) && immField w == 0)
    || (([0x21, 0x29] : List (BitVec 8)).contains (opField w) && w.extractLsb' 1 15 == 0)
    || (([0x22, 0x2A] : List (BitVec 8)).contains (opField w) && w.extractLsb' 8 8 == 0)
    || ([0x11, 0x18] : List (BitVec 8)).contains (opField w))

/-- The immediate field of a command, its operand zero-extended (R82). -/
def Instr.imm (i : Instr) : BitVec 16 := BitVec.ofNat 16 i.operand

/-- A word with the given opcode and immediate field and `z = 0`: `op << 24 | imm` (R83). -/
def wordOf (op : BitVec 8) (imm : BitVec 16) : CmdWord := (op.setWidth 32 <<< 24) ||| imm.setWidth 32

/-- The encoder: the word of a command (R80, R83). -/
def encode (i : Instr) : CmdWord := wordOf i.mnemonic.op i.imm

/-- `match` of R83: the opcode in bits 31:24. -/
def Mnemonic.matchWord (m : Mnemonic) : CmdWord := wordOf m.op 0

/-- `mask` of R83, by format. -/
def Mnemonic.mask (m : Mnemonic) : CmdWord :=
  match m.format with
  | .z => 0xFFFFFFFF
  | .i1 => 0xFFFFFFFE
  | .i8 => 0xFFFFFF00
  | .i16 => 0xFFFF0000

/-- The assembler: the command of a line, nothing where the operand is out of range (R86). -/
def assemble (l : AsmLine) : Option Instr :=
  if l.WellFormed then some (l.mnemonic.instr (BitVec.ofNat 16 l.operand)) else none

/-- What the decoder reads from a command whose low `nbits` bits are `w` and whose other bits are 0. A command is one
32-bit word (R80), so there is no byte order to lay out. -/
def decodeTableWord (nbits w : Nat) : Option Instr :=
  match decode (BitVec.ofNat 32 (w % 2 ^ nbits)) with
  | .ok i => some i
  | .error _ => none

end Sys2Proof
end

