-- ==== Sys2Proof/Config.lean ====
section
/-! DEFINITION. The fixed constants of the engine (spec/00_scope.md R3, R4, R5) and the two parameters the spec
leaves to the platform (spec/92_eei_decisions.md, "Open parameters"). None is programmable (R3, R47). -/

namespace Sys2Proof.Config

/-- `P1` (R3). -/
def p1 : Nat := 9941
/-- `P2` (R3). -/
def p2 : Nat := 9967
/-- `P3` (R3). -/
def p3 : Nat := 9973
/-- `MULT`, the hash multiplier (R3). -/
def mult : Nat := 37
/-- `MAT`, row-major (R3); only column 0 is ever read (R130, 90_conflicts.md C3). -/
def mat : List (List Nat) := [[2, 3, 5], [7, 11, 13], [17, 19, 23]]
/-- `MAT[r][0]`, the entry of row `r` that R130 uses. -/
def matCol0 (r : Nat) : Nat := ((mat.getD r []).headD 0)
/-- `ITER`, the rounds of one derivation (R3, R144). -/
def iter : Nat := 20000
/-- `SALTLEN`: how many salt codes the host appends to the key (R3, R146). -/
def saltLen : Nat := 16
/-- `KEYMAX = KEYCAP`, the bytes of `KEY` (R3, R5). -/
def keyCap : Nat := 128
/-- `TXTCAP`, the bytes of `TXT` (R5). -/
def txtCap : Nat := 64
/-- `M3 = P1*P2*P3`, the modulus of the rolling hash (R4). -/
def m3 : Nat := 988144257431
/-- `M2 = P2*P3`, the modulus of step b (R4). -/
def m2 : Nat := 99400891
/-- `XK = P1 xor P2 xor P3`, the mixing constant of step c (R4). -/
def xk : Nat := 9935
/-- The value `ID` reads: "CITADEL" and 7 (R24). -/
def idValue : Data := 0x4349544144454C07

/-- `BASE`: the byte address at which a platform with a byte-addressed bus puts index 0. OPEN in the spec (R5, R75,
D1), so it has no body here and no rule of the engine reads it (log 9). -/
opaque base : Nat
/-- The byte address of register index `r` on such a platform: `BASE + 8*r` (R5). -/
def byteAddress (r : Index) : Nat := base + 8 * r.toNat
/-- `IRQ_LINE`: the host interrupt input that `irq` drives. OPEN in the spec (R194, D8), read by no rule (log 9). -/
opaque irqLine : Nat

end Sys2Proof.Config
end

