-- ==== Sys2Proof/Machine/State.lean ====
section
/-! DEFINITION. The state of the machine: `Engine` is the complete state the spec gives the engine
(spec/10_state.md R20, "the following and nothing else"), and `State` adds what stands outside the block: the steps
still to come (log 2) and the data the host last read (log 3). Plain data throughout. -/

namespace Sys2Proof.Machine

/-- A byte buffer, as the (offset, byte) pairs that differ from 0, offsets strictly rising; an offset that is not listed
reads 0, which is every buffer byte's reset value (R45, log 1). -/
abbrev Memory := List Host.Cell

/-- One place in the total order of atomic steps of R76: who moves next, and what the host does if it is the host. -/
inductive Turn where
  /-- The host performs `PortRead(idx)` (R61). -/
  | read (idx : Index)
  /-- The host performs `PortWrite(idx, v)` (R62, R63). -/
  | write (idx : Index) (v : Data)
  /-- The host asserts `rst` (R215). -/
  | rst
  /-- The engine may take its step: a completion if BUSY = 1, nothing if it is idle (R6, R88). -/
  | engine
deriving DecidableEq, Repr

/-- The complete state of the engine (R20). -/
structure Engine where
  /-- `BUSY`: a command is latched and not yet completed. -/
  busy : Bool
  /-- `DONE`: the last accepted command completed without error. -/
  done : Bool
  /-- `ERRCODE`: 0, or the code of the first unacknowledged error (R186). -/
  errcode : BitVec 4
  /-- `ERRINFO`: the command word or register index recorded with `ERRCODE` (R27). -/
  errinfo : BitVec 32
  /-- `IE_DONE`: DONE asserts `irq` (R26). -/
  ieDone : Bool
  /-- `IE_ERR`: an error asserts `irq` (R26). -/
  ieErr : Bool
  /-- `CW`: the last accepted command word, read as `CMD` (R28). -/
  cw : CmdWord
  /-- `OPA`: the base of MODPOW (R29). -/
  opa : BitVec 64
  /-- `OPE`: the exponent of MODPOW (R29). -/
  ope : BitVec 64
  /-- `OPM`: the modulus of MODPOW (R29). -/
  opm : BitVec 64
  /-- `RES`: the result of the last successful MODPOW (R30). -/
  res : BitVec 64
  /-- `ACC`: the rolling-hash accumulator; any 40-bit value is possible (R31). -/
  acc : BitVec 40
  /-- `V0` (R32). -/
  v0 : BitVec 45
  /-- `V1` (R32). -/
  v1 : BitVec 45
  /-- `V2` (R32). -/
  v2 : BitVec 45
  /-- `TXT[0..63]`: the text buffer (R39). -/
  txt : Memory
  /-- `TLEN`: the number of valid bytes of `TXT`, 0 to 64 (R33). -/
  tlen : BitVec 7
  /-- `RCNT`: rounds completed by composite commands (R34). -/
  rcnt : BitVec 32
  /-- `KEY[0..127]`: the derived-key buffer (R40). -/
  key : Memory
  /-- `KLEN`: the number of valid bytes of `KEY`, 0 to 128 (R35). -/
  klen : BitVec 8
  /-- `POS`: the stream cipher's bit position (R36). -/
  pos : BitVec 64
  /-- `DPOS`: the block diffuser's bit position (R37). -/
  dpos : BitVec 64
  /-- `DOUT`: the output of the latest cipher or diffuser command (R38). -/
  dout : Byte
deriving DecidableEq, Repr

/-- Every component 0 (R45). -/
def Engine.reset : Engine :=
  { busy := false, done := false, errcode := 0, errinfo := 0, ieDone := false, ieErr := false, cw := 0,
    opa := 0, ope := 0, opm := 0, res := 0, acc := 0, v0 := 0, v1 := 0, v2 := 0, txt := [], tlen := 0, rcnt := 0,
    key := [], klen := 0, pos := 0, dpos := 0, dout := 0 }

/-- The engine and the model's own record of the host. -/
structure State extends Engine where
  /-- The steps of R76 still to come, the next one first. DESIGN CHOICE: the model's own field (log 2). -/
  turns : List Turn
  /-- What the latest `PortRead` returned. DESIGN CHOICE: the model's own field (log 3). -/
  rdata : Data
deriving DecidableEq, Repr

/-- The machine right after reset: the engine all zero (R45); no step is scheduled and nothing has been read
(DESIGN CHOICE, log 2 and log 3). -/
def State.reset : State := { Engine.reset with turns := [], rdata := 0 }

/-- Why the machine stops. Neither happens in a state that a run reaches (R46, R240). -/
inductive Fault where
  /-- Raised by HFEED, KLOAD and ROUNDS (with at least one round) when TLEN is above 64: the command would read a byte
  `TXT[j]` with `j >= 64`, which does not exist (R8, R39). Safe: no run reaches such a state (R46, log 6). -/
  | txtIndex
  /-- Raised by SBIT, SXOR, DBIT and DXOR when KLEN is above 128 and the command would read a byte `KEY[j]` with
  `j >= 128`, which does not exist (R8, R40). Safe: no run reaches such a state (R46, log 7). -/
  | keyIndex
deriving DecidableEq, Repr

/-- Why a step has no meaning. -/
inductive Refusal where
  /-- Raised only by an arm of `exec` whose command has no meaning yet; no arm is such. Safe: the run stops. -/
  | notModelled (mnemonic : String)
deriving DecidableEq, Repr

/-- What a command or a step answers. -/
abbrev Out := Host.Outcome State Fault Refusal

end Sys2Proof.Machine
end

