-- ==== Sys2Proof/Machine/Flags.lean ====
section
/-! DEFINITION. Every flag of the engine (spec/10_state.md R25, R26, R41, R43): the success action `complete`
(spec/30_encoding.md R89), the derived flag ERR, the words `STATUS` and `CTRL` as a read returns them
(spec/20_memory.md R61), and the output `irq`. No command sets a carry, zero, sign or overflow flag (R41). -/

namespace Sys2Proof.Machine

/-- The success action `complete`: BUSY <- 0, DONE <- 1, and neither ERRCODE nor ERRINFO (R89). -/
def complete (s : State) : State := { s with busy := false, done := true }

/-- `STATUS.ERR`: 1 exactly when ERRCODE is not 0; not separate state (R25). -/
def errFlag (s : State) : Bool := s.errcode != 0

/-- A flag as a port datum. -/
def flagData (b : Bool) : Data := (BitVec.ofBool b).setWidth 64

/-- What a read of `STATUS` returns: BUSY, DONE, ERR in bits 0 to 2, ERRCODE in bits 11:8, 0 elsewhere (R25, R61). -/
def statusWord (s : State) : Data :=
  flagData s.busy ||| (flagData s.done <<< 1) ||| (flagData (errFlag s) <<< 2) ||| (s.errcode.setWidth 64 <<< 8)

/-- What a read of `CTRL` returns: IE_DONE and IE_ERR in bits 0 and 1 (R26, R61). -/
def ctrlWord (s : State) : Data := flagData s.ieDone ||| (flagData s.ieErr <<< 1)

/-- The output `irq`, a level and a pure function of state (R43, R193). -/
def irq (s : State) : Bool := (s.done && s.ieDone) || (errFlag s && s.ieErr)

end Sys2Proof.Machine
end

