-- ==== Sys2Proof/Machine/Ops.lean ====
section
/-! DEFINITION. The named operations over the byte buffers (spec/00_scope.md R8, spec/10_state.md R39, R40) and over
the error record: the error action (spec/60_exceptions.md R188), this engine's only form of taking an exception, and
the acknowledgement (spec/20_memory.md R67), its only form of returning from one (R185, R191). -/

namespace Sys2Proof.Machine

/-! ## Buffers -/

/-- The byte at an offset; 0 where no cell lists it (R45, log 1). -/
def Memory.read : Memory → Nat → Byte
  | [], _ => 0
  | (a, b) :: rest, j => if a = j then b else Memory.read rest j

/-- Writes one byte and keeps the canonical form: a byte 0, which is what an unlisted offset reads, is not listed. -/
def Memory.write : Memory → Nat → Byte → Memory
  | [], j, b => if b = 0 then [] else [(j, b)]
  | (a, x) :: rest, j, b =>
    if a < j then (a, x) :: Memory.write rest j b
    else if a = j then (if b = 0 then rest else (j, b) :: rest)
    else (if b = 0 then (a, x) :: rest else (j, b) :: (a, x) :: rest)

/-- Writes the bytes in order at `j`, `j + 1`, ... (the loops `for j in 0 .. len(s)-1` of R132 and R145). -/
def Memory.writeAll : Memory → Nat → List Byte → Memory
  | m, _, [] => m
  | m, j, b :: bs => Memory.writeAll (Memory.write m j b) (j + 1) bs

/-- Every listed offset is at least `lo` and below `cap`, offsets rise strictly, and no listed byte is 0. -/
def Memory.wfFrom : Nat → Nat → Memory → Bool
  | _, _, [] => true
  | lo, cap, (a, b) :: rest => decide (lo ≤ a) && decide (a < cap) && b != 0 && Memory.wfFrom (a + 1) cap rest

/-- The canonical form of a buffer of `cap` bytes. -/
def Memory.wf (cap : Nat) (m : Memory) : Bool := Memory.wfFrom 0 cap m

/-! ## Errors -/

/-- The six errors (R186). -/
inductive ErrorCode where
  /-- A word that is no command (R84). -/
  | illCmd
  /-- MODPOW with OPM = 0 (R106). -/
  | modZero
  /-- A cipher or diffuser command with KLEN = 0 (R157, R159, R172, R173). -/
  | noKey
  /-- SCHK with POS no multiple of 8: the source's `InvalidCiphertextLength` (R161). -/
  | ctLen
  /-- A port write while BUSY (R63). -/
  | busyWr
  /-- A length out of range written to TLEN or KLEN (R70). -/
  | badVal
deriving DecidableEq, Repr

/-- The code an error records (R186, D7). -/
def ErrorCode.code : ErrorCode → BitVec 4
  | .illCmd => 1
  | .modZero => 2
  | .noKey => 3
  | .ctLen => 4
  | .busyWr => 5
  | .badVal => 6

/-- The record of an error: the first one wins (R188). -/
def recordError (e : ErrorCode) (info : BitVec 32) (s : State) : State :=
  if s.errcode = 0 then { s with errcode := e.code, errinfo := info } else s

/-- `raise Error(code, info)`: records it, BUSY <- 0, DONE not set, nothing else changes (R188). -/
def raiseError (e : ErrorCode) (info : BitVec 32) (s : State) : State :=
  { recordError e info s with busy := false }

/-- The error action of a write while BUSY: as `raiseError`, but BUSY is not cleared (R63, R188). -/
def raiseBusyWrite (idx : Index) (s : State) : State := recordError .busyWr (idx.setWidth 32) s

/-- A write of `v` to `STATUS`, the acknowledgement: bit 1 clears DONE, bit 2 clears ERRCODE and ERRINFO (R67, R191). -/
def writeStatus (v : Data) (s : State) : State :=
  let s := if v.getLsbD 1 then { s with done := false } else s
  if v.getLsbD 2 then { s with errcode := 0, errinfo := 0 } else s

/-- The end of a command that may fail: the error action with `CW` where `bad` holds, else the result and `complete`
(R88: a rule ends in `complete` or in `raise Error(code, CW)` and no other write). -/
def completeUnless (bad : Prop) [Decidable bad] (e : ErrorCode) (s result : State) : State :=
  if bad then raiseError e s.cw s else complete result

end Sys2Proof.Machine
end

