-- ==== Sys2Proof/Machine/Operands.lean ====
section
/-! DEFINITION. The operand forms of the commands: the text `TXT[0 .. TLEN-1]` (spec/10_state.md R39), the one computed
address `KEY[i mod KLEN]` (spec/20_memory.md R240), the key-stream bit (spec/45_stream_cipher.md R155), the window of the
diffuser (spec/46_block_diffuser.md R170), and the packing of eight bits, most significant first (R72, R160). -/

namespace Sys2Proof.Machine

/-! ## The text -/

/-- The first `tlen` bytes of a text buffer. -/
def textOf (txt : Memory) (tlen : BitVec 7) : List Byte := (List.range tlen.toNat).map txt.read

/-- The text a round consumes: `TXT[0 .. TLEN-1]`. -/
def State.text (s : State) : List Byte := textOf s.txt s.tlen

/-- Ends a command that has read the whole text: it completes with `result`, unless TLEN names bytes past the end of
`TXT` (fault `txtIndex`, log 6). -/
def withText (s result : State) : Out :=
  if s.tlen.toNat ≤ Config.txtCap then .next (complete result) else .fault .txtIndex

/-! ## The key -/

/-- The index `i mod KLEN` of the key byte that bit position `p` uses (R155, R170). -/
def keyIndex (s : State) (p : BitVec 64) : Nat := p.toNat % s.klen.toNat

/-- The key byte that bit position `p` uses. -/
def keyByteAt (s : State) (p : BitVec 64) : Byte := s.key.read (keyIndex s p)

/-- The `k`-th bit position from `p`, modulo `2^64` (R159, R173, R240). -/
def posAt (p : BitVec 64) (k : Nat) : BitVec 64 := p + BitVec.ofNat 64 k

/-- The key bytes that the `n` bit positions from `p` use all exist. -/
def keyInRange (s : State) (p : BitVec 64) (n : Nat) : Bool :=
  (List.range n).all fun k => decide (keyIndex s (posAt p k) < Config.keyCap)

/-- Ends a command that reads the key at the `n` bit positions from `p`: E_NOKEY if there is no key (R157, R159, R172,
R173), else it completes with `result`, unless KLEN names bytes past the end of `KEY` (fault `keyIndex`, log 7). -/
def withKey (s : State) (p : BitVec 64) (n : Nat) (result : State) : Out :=
  if s.klen = 0 then .next (raiseError .noKey s.cw s)
  else if keyInRange s p n then .next (complete result)
  else .fault .keyIndex

/-- `ksbit(i)`: the least significant bit of the key byte, and no other bit of it (R155, R158). -/
def ksbit (s : State) (p : BitVec 64) : Bool := (keyByteAt s p).getLsbD 0

/-- `kb[t]`: bit `t` of a byte seen as a bit string, most significant bit first (R7, R170). -/
def msbBit (b : Byte) (t : Nat) : Bool := b.getLsbD (7 - t)

/-- `windowValue(i)`: the circular three-bit neighbourhood of position `i mod 8` in the key byte, read as a binary
numeral (R170). -/
def windowValue (s : State) (p : BitVec 64) : Nat :=
  let kb := keyByteAt s p
  let j := p.toNat % 8
  4 * (msbBit kb ((j + 7) % 8)).toNat + 2 * (msbBit kb j).toNat + (msbBit kb ((j + 1) % 8)).toNat

/-- `dbitmask(i) = windowValue(i) mod 2` (R170). -/
def dbitmask (s : State) (p : BitVec 64) : Bool := windowValue s p % 2 == 1

/-! ## Bits of a byte -/

/-- `zext_8` of one bit: bit 0 of `DOUT`, bits 7:1 zero (R38, R157, R172). -/
def bitByte (b : Bool) : Byte := (BitVec.ofBool b).setWidth 8

/-- `o[0]<<7 | o[1]<<6 | ... | o[7]`: eight output bits, the first in bit 7 (R159, R173). -/
def packBits (o : Nat → Bool) : Byte :=
  BitVec.ofBoolListBE [o 0, o 1, o 2, o 3, o 4, o 5, o 6, o 7]

/-- Eight bits of `x`, bit 7 first, each XORed with the mask bit of its own position from `p` on (R159, R173). -/
def xorByte (mask : BitVec 64 → Bool) (p : BitVec 64) (x : Byte) : Byte :=
  packBits fun k => msbBit x k ^^ mask (posAt p k)

end Sys2Proof.Machine
end

