-- ==== Sys2Proof/Machine/Diffuser.lean ====
section
/-! DEFINITION. The block diffuser (spec/46_block_diffuser.md R171 to R173). -/

namespace Sys2Proof.Machine

/-- DSTART: DPOS <- 0 (R171). -/
def execDstart (s : State) : Out := .next (complete { s with dpos := 0 })

/-- DBIT `b`: DOUT <- b xor dbitmask(DPOS), DPOS + 1; KLEN = 0 raises E_NOKEY (R172). -/
def execDbit (b : BitVec 1) (s : State) : Out :=
  withKey s s.dpos 1 { s with dout := bitByte (b.getLsbD 0 ^^ dbitmask s s.dpos), dpos := s.dpos + 1 }

/-- DXOR `x`: eight bits, bit 7 first, each XORed with the window's mask bit at its position; DPOS + 8 (R173). -/
def execDxor (x : Byte) (s : State) : Out :=
  withKey s s.dpos 8 { s with dout := xorByte (dbitmask s) s.dpos x, dpos := s.dpos + 8 }

end Sys2Proof.Machine
end

