-- ==== Sys2Proof/Machine/Arith.lean ====
section
/-! DEFINITION. The arithmetic of the engine on exact unsigned integers (spec/00_scope.md R7, R11; D9): modular
exponentiation (spec/41_modexp.md R105, R107), the rolling hash (spec/42_hash.md R115), the mixer (R120), the decimal
formatter (spec/43_matrix_string.md R131) and the tail of a round (spec/44_round_derive.md R140). Nothing here wraps;
registers narrow a value when they store it. -/

namespace Sys2Proof.Machine

/-- The loop of `modpow_ref` (R107), at most `fuel` turns: `r` the result so far, `b` the current square, `e` what is
left of the exponent, scanned from its low end. -/
def modpowLoop (m : Nat) : Nat → Nat → Nat → Nat → Nat
  | 0, r, _, _ => r
  | fuel + 1, r, b, e =>
    if e = 0 then r
    else modpowLoop m fuel (if e % 2 = 1 then r * b % m else r) (b * b % m) (e / 2)

/-- `modpow(b, e, m)` for `m >= 1`: 0 if `m = 1`, tested first, else `(b ^ e) mod m` (R105), computed by the
square-and-multiply of R107, whose loop runs once per bit of `e`. The spec leaves `m = 0` undefined, and no command
reaches it (R106, R109; log 11). -/
def modpow (b e m : Nat) : Nat :=
  if m = 1 then 0 else modpowLoop m (e.log2 + 1) 1 (b % m) e

/-- `absorb(a, c) = (a * 37 + c) mod M3` (R115). -/
def absorb (a c : Nat) : Nat := (a * Config.mult + c) % Config.m3

/-- `fold(text, a)`: absorbs the bytes of `text` in order, first byte first (R115). -/
def foldText (text : List Byte) (a : Nat) : Nat := text.foldl (fun a c => absorb a c.toNat) a

/-- `hash_a(text) = fold(text, 0)` (R115). -/
def hashA (text : List Byte) : Nat := foldText text 0

/-- Step b of a round: `acc ^ P1 mod M2` (R109, R119). -/
def expStep (a : Nat) : Nat := modpow a Config.p1 Config.m2

/-- Step c of a round: `acc xor XK`, the bitwise XOR of integers (R120). -/
def mixStep (a : Nat) : Nat := a ^^^ Config.xk

/-- The ASCII byte of a decimal digit: 0x30 to 0x39 (R7). -/
def digitByte (d : Nat) : Byte := BitVec.ofNat 8 (0x30 + d)

/-- Puts the decimal digits of `n` before `tail`, least significant digit last, at most `fuel` of them. -/
def decLoop : Nat → Nat → List Byte → List Byte
  | 0, _, tail => tail
  | fuel + 1, n, tail =>
    if n < 10 then digitByte n :: tail
    else decLoop fuel (n / 10) (digitByte (n % 10) :: tail)

/-- `dec(n)`: the decimal numeral of `n` in ASCII, most significant digit first, no leading zeros, `dec(0) = "0"`
(R7). A numeral has no more digits than `n` has bits, and at least one. -/
def dec (n : Nat) : List Byte := decLoop (n.log2 + 1) n []

/-- The separator: one comma (R131). -/
def comma : Byte := 0x2C

/-- `str3(v0, v1, v2)`: the three numerals joined by single commas, nothing else (R131, D13). -/
def str3 (v0 v1 v2 : Nat) : List Byte := dec v0 ++ [comma] ++ dec v1 ++ [comma] ++ dec v2

/-- Component `r` of the vector: `MAT[r][0] * acc` (R130). -/
def matRow (r a : Nat) : Nat := Config.matCol0 r * a

/-- What steps b to e of a round leave (R140): the accumulator, the vector and the text. -/
structure RoundResult where
  acc : Nat
  v0 : Nat
  v1 : Nat
  v2 : Nat
  text : List Byte
deriving DecidableEq, Repr

/-- `tail(a)`: steps b, c, d and e on the value `a` of step a (R140). -/
def roundTail (a : Nat) : RoundResult :=
  let c := mixStep (expStep a)
  { acc := c, v0 := matRow 0 c, v1 := matRow 1 c, v2 := matRow 2 c,
    text := str3 (matRow 0 c) (matRow 1 c) (matRow 2 c) }

/-- `round(text)` (R140). -/
def hashRound (text : List Byte) : RoundResult := roundTail (hashA text)

end Sys2Proof.Machine
end

