-- ==== Sys2Proof/Machine/Hash.lean ====
section
/-! DEFINITION. The rolling hash, the exponentiation step and the mixer (spec/42_hash.md R116 to R120). -/

namespace Sys2Proof.Machine

/-- `ACC <- v`; every rule shows that `v` fits 40 bits (R121). -/
def setAcc (v : Nat) (s : State) : State := { s with acc := BitVec.ofNat 40 v }

/-- HINIT: clears ACC and RCNT (R116). -/
def execHinit (s : State) : Out := .next (complete { s with acc := 0, rcnt := 0 })

/-- HABS `code`: `ACC <- absorb(ACC, code)` (R117). -/
def execHabs (code : BitVec 16) (s : State) : Out := .next (complete (setAcc (absorb s.acc.toNat code.toNat) s))

/-- HFEED: `ACC <- fold(TXT[0 .. TLEN-1], 0)`; the old ACC is discarded (R118). -/
def execHfeed (s : State) : Out := withText s (setAcc (hashA s.text) s)

/-- HEXP: `ACC <- modpow(ACC, 9941, 99400891)`; neither RES nor the operand registers are touched (R119). -/
def execHexp (s : State) : Out := .next (complete (setAcc (expStep s.acc.toNat) s))

/-- HMIX: `ACC <- ACC xor 9935` (R120). -/
def execHmix (s : State) : Out := .next (complete (setAcc (mixStep s.acc.toNat) s))

end Sys2Proof.Machine
end

