-- ==== Sys2Proof/Machine/MatrixString.lean ====
section
/-! DEFINITION. The matrix transform and the decimal formatter (spec/43_matrix_string.md R130, R132). -/

namespace Sys2Proof.Machine

/-- `V0, V1, V2 <- v0, v1, v2`. -/
def setVector (v0 v1 v2 : Nat) (s : State) : State :=
  { s with v0 := BitVec.ofNat 45 v0, v1 := BitVec.ofNat 45 v1, v2 := BitVec.ofNat 45 v2 }

/-- `TXT[0 .. len(t)-1] <- t; TLEN <- len(t)`; bytes of TXT from `len(t)` on keep their values (R132, R39). -/
def setText (t : List Byte) (s : State) : State :=
  { s with txt := s.txt.writeAll 0 t, tlen := BitVec.ofNat 7 t.length }

/-- HMAT: `V0, V1, V2 <- 2*ACC, 7*ACC, 17*ACC`, column 0 of the matrix (R130). -/
def execHmat (s : State) : Out :=
  .next (complete (setVector (matRow 0 s.acc.toNat) (matRow 1 s.acc.toNat) (matRow 2 s.acc.toNat) s))

/-- HSTR: `TXT, TLEN <- str3(V0, V1, V2)` (R132). -/
def execHstr (s : State) : Out := .next (complete (setText (str3 s.v0.toNat s.v1.toNat s.v2.toNat) s))

end Sys2Proof.Machine
end

