-- ==== Sys2Proof/Machine/ModExp.lean ====
section
/-! DEFINITION. Modular exponentiation as a command (spec/41_modexp.md R106). -/

namespace Sys2Proof.Machine

/-- MODPOW: `RES <- modpow(OPA, OPE, OPM)`; OPM = 0 raises E_MODZERO and RES keeps its value (R106). -/
def execModpow (s : State) : Out :=
  .next (completeUnless (s.opm = 0) .modZero s
    { s with res := BitVec.ofNat 64 (modpow s.opa.toNat s.ope.toNat s.opm.toNat) })

end Sys2Proof.Machine
end

