-- ==== Sys2Proof/Machine/RoundDerive.lean ====
section
/-! DEFINITION. The round, its iteration and the key load (spec/44_round_derive.md R141 to R145). -/

namespace Sys2Proof.Machine

/-- The registers a round writes, and the only ones its steps read: ACC, V0..V2, TXT and TLEN (R141). -/
structure RoundRegs where
  acc : BitVec 40
  v0 : BitVec 45
  v1 : BitVec 45
  v2 : BitVec 45
  txt : Memory
  tlen : BitVec 7
deriving DecidableEq, Repr

/-- The round registers of a state. -/
def State.roundRegs (s : State) : RoundRegs :=
  { acc := s.acc, v0 := s.v0, v1 := s.v1, v2 := s.v2, txt := s.txt, tlen := s.tlen }

/-- The state with its round registers replaced; every other component keeps its value. -/
def setRoundRegs (r : RoundRegs) (s : State) : State :=
  { s with acc := r.acc, v0 := r.v0, v1 := r.v1, v2 := r.v2, txt := r.txt, tlen := r.tlen }

/-- Stores what a round leaves: ACC, the vector, the text and its length (R141). -/
def storeRound (r : RoundResult) (x : RoundRegs) : RoundRegs :=
  { acc := BitVec.ofNat 40 r.acc, v0 := BitVec.ofNat 45 r.v0, v1 := BitVec.ofNat 45 r.v1, v2 := BitVec.ofNat 45 r.v2,
    txt := x.txt.writeAll 0 r.text, tlen := BitVec.ofNat 7 r.text.length }

/-- `RCNT <- (RCNT + n) mod 2^32` (R34). -/
def addRounds (n : Nat) (s : State) : State := { s with rcnt := s.rcnt + BitVec.ofNat 32 n }

/-- The body of HFIN without its RCNT update: steps b to e on ACC (R141, R144). -/
def finishRound (x : RoundRegs) : RoundRegs := storeRound (roundTail x.acc.toNat) x

/-- The loop body of ROUNDS: step a on the current text, then steps b to e (R143). -/
def oneRound (x : RoundRegs) : RoundRegs := storeRound (hashRound (textOf x.txt x.tlen)) x

/-- `n` times the loop body of ROUNDS (R143). -/
def repeatRounds : Nat → RoundRegs → RoundRegs
  | 0, x => x
  | n + 1, x => repeatRounds n (oneRound x)

/-- The body of KLOAD: `n = min(TLEN, 128)`, `KEY[0 .. n-1] <- TXT[0 .. n-1]`, `KLEN <- n`; no padding (R145). -/
def loadKey (s : State) : State :=
  let n := min s.tlen.toNat Config.keyCap
  { s with key := s.key.writeAll 0 (s.text.take n), klen := BitVec.ofNat 8 n }

/-- HFIN: steps b to e of a round on ACC, counted (R141). -/
def execHfin (s : State) : Out :=
  .next (complete (addRounds 1 (setRoundRegs (finishRound s.roundRegs) s)))

/-- ROUNDS `n`: `n` whole rounds in one atomic completion, counted; with `n = 0` nothing is read (R143). -/
def execRounds (n : BitVec 16) (s : State) : Out :=
  if n = 0 then .next (complete s)
  else withText s (addRounds n.toNat (setRoundRegs (repeatRounds n.toNat s.roundRegs) s))

/-- DERIVE: round 1 from ACC, rounds 2 to 20000, RCNT + 20000, then the key load (R144). -/
def execDerive (s : State) : Out :=
  .next (complete (loadKey (addRounds Config.iter
    (setRoundRegs (repeatRounds (Config.iter - 1) (finishRound s.roundRegs)) s))))

/-- KLOAD: the text becomes the key (R145). -/
def execKload (s : State) : Out := withText s (loadKey s)

end Sys2Proof.Machine
end

