-- ==== Sys2Proof/Machine/StreamCipher.lean ====
section
/-! DEFINITION. The stream-cipher XOR stage (spec/45_stream_cipher.md R156 to R161). -/

namespace Sys2Proof.Machine

/-- SSTART: POS <- 0 (R156). -/
def execSstart (s : State) : Out := .next (complete { s with pos := 0 })

/-- SBIT `b`: DOUT <- b xor ksbit(POS), POS + 1; KLEN = 0 raises E_NOKEY (R157). -/
def execSbit (b : BitVec 1) (s : State) : Out :=
  withKey s s.pos 1 { s with dout := bitByte (b.getLsbD 0 ^^ ksbit s s.pos), pos := s.pos + 1 }

/-- SXOR `x`: eight bits, bit 7 first, each XORed with the key-stream bit of its position; POS + 8 (R159). -/
def execSxor (x : Byte) (s : State) : Out :=
  withKey s s.pos 8 { s with dout := xorByte (ksbit s) s.pos x, pos := s.pos + 8 }

/-- SCHK: raises E_CTLEN if POS is no multiple of 8; POS = 0 passes (R161, 90_conflicts.md C1). -/
def execSchk (s : State) : Out := .next (completeUnless (s.pos.toNat % 8 ≠ 0) .ctLen s s)

end Sys2Proof.Machine
end

