-- ==== Sys2Proof/Machine/System.lean ====
section
/-! DEFINITION. The system command (spec/40_system.md). -/

namespace Sys2Proof.Machine

/-- NOP: completes and changes nothing else (R100). -/
def execNop (s : State) : Out := .next (complete s)

end Sys2Proof.Machine
end

