-- ==== Sys2Proof/Machine/Dispatch.lean ====
section
/-! DEFINITION. The dispatch of a decoded command to its meaning (spec/30_encoding.md R83, R88). -/

namespace Sys2Proof.Machine

/-- The command's own rule, as the completion performs it (R88). -/
def exec (i : Instr) (s : State) : Host.Outcome State Fault Refusal :=
  match i with
  | .nop => Sys2Proof.Machine.execNop s
  | .modpow => Sys2Proof.Machine.execModpow s
  | .hinit => Sys2Proof.Machine.execHinit s
  | .habs code => Sys2Proof.Machine.execHabs code s
  | .hfeed => Sys2Proof.Machine.execHfeed s
  | .hexp => Sys2Proof.Machine.execHexp s
  | .hmix => Sys2Proof.Machine.execHmix s
  | .hmat => Sys2Proof.Machine.execHmat s
  | .hstr => Sys2Proof.Machine.execHstr s
  | .hfin => Sys2Proof.Machine.execHfin s
  | .rounds n => Sys2Proof.Machine.execRounds n s
  | .derive => Sys2Proof.Machine.execDerive s
  | .kload => Sys2Proof.Machine.execKload s
  | .sstart => Sys2Proof.Machine.execSstart s
  | .sbit b => Sys2Proof.Machine.execSbit b s
  | .sxor x => Sys2Proof.Machine.execSxor x s
  | .schk => Sys2Proof.Machine.execSchk s
  | .dstart => Sys2Proof.Machine.execDstart s
  | .dbit b => Sys2Proof.Machine.execDbit b s
  | .dxor x => Sys2Proof.Machine.execDxor x s

end Sys2Proof.Machine
end

