-- ==== Sys2Proof/Machine/Port.lean ====
section
/-! DEFINITION. The host port: the register map (spec/10_state.md R22), `PortRead` (spec/20_memory.md R61), `PortWrite`
(R62 to R71) and reset (spec/70_reset_and_hazards.md R215). Every access is whole and atomic (R73, R74). -/

namespace Sys2Proof.Machine

/-- What stands at a register index (R22). -/
inductive PortReg where
  | id | status | ctrl | errinfo | cmd
  | opa | ope | opm | res
  | acc | v0 | v1 | v2 | tlen | rcnt
  | klen | pos | dpos | dout
  | txt (j : Fin 64)
  | key (j : Fin 128)
  | reserved
deriving DecidableEq, Repr

/-- The register map (R22): 0x40 + j is `TXT[j]`, 0x80 + j is `KEY[j]`, every index not named is reserved (R64). -/
def regAt (idx : Index) : PortReg :=
  if h : 0x80 ≤ idx.toNat then .key ⟨idx.toNat - 0x80, by have := idx.isLt; omega⟩
  else if h : 0x40 ≤ idx.toNat then .txt ⟨idx.toNat - 0x40, by omega⟩
  else match idx.toNat with
    | 0x00 => .id
    | 0x01 => .status
    | 0x02 => .ctrl
    | 0x03 => .errinfo
    | 0x04 => .cmd
    | 0x08 => .opa
    | 0x09 => .ope
    | 0x0A => .opm
    | 0x0B => .res
    | 0x10 => .acc
    | 0x11 => .v0
    | 0x12 => .v1
    | 0x13 => .v2
    | 0x14 => .tlen
    | 0x15 => .rcnt
    | 0x18 => .klen
    | 0x19 => .pos
    | 0x1A => .dpos
    | 0x1B => .dout
    | _ => .reserved

/-- The index of a name of R22; a reserved register has no name of its own, and 0x05 stands for it. -/
def PortReg.index : PortReg → Index
  | .id => 0x00
  | .status => 0x01
  | .ctrl => 0x02
  | .errinfo => 0x03
  | .cmd => 0x04
  | .opa => 0x08
  | .ope => 0x09
  | .opm => 0x0A
  | .res => 0x0B
  | .acc => 0x10
  | .v0 => 0x11
  | .v1 => 0x12
  | .v2 => 0x13
  | .tlen => 0x14
  | .rcnt => 0x15
  | .klen => 0x18
  | .pos => 0x19
  | .dpos => 0x1A
  | .dout => 0x1B
  | .txt j => BitVec.ofNat 8 (0x40 + j.val)
  | .key j => BitVec.ofNat 8 (0x80 + j.val)
  | .reserved => 0x05

/-- The value a register reads, zero-extended (R61). -/
def readReg (s : State) : PortReg → Data
  | .id => Config.idValue
  | .status => statusWord s
  | .ctrl => ctrlWord s
  | .errinfo => s.errinfo.setWidth 64
  | .cmd => s.cw.setWidth 64
  | .opa => s.opa
  | .ope => s.ope
  | .opm => s.opm
  | .res => s.res
  | .acc => s.acc.setWidth 64
  | .v0 => s.v0.setWidth 64
  | .v1 => s.v1.setWidth 64
  | .v2 => s.v2.setWidth 64
  | .tlen => s.tlen.setWidth 64
  | .rcnt => s.rcnt.setWidth 64
  | .klen => s.klen.setWidth 64
  | .pos => s.pos
  | .dpos => s.dpos
  | .dout => s.dout.setWidth 64
  | .txt j => (s.txt.read j.val).setWidth 64
  | .key j => (s.key.read j.val).setWidth 64
  | .reserved => 0

/-- `PortRead(idx)`: a value, and no change of state (R61). -/
def portRead (idx : Index) (s : State) : Data := readReg s (regAt idx)

/-- A write to `CTRL`, at any time (R68). -/
def writeCtrl (v : Data) (s : State) : State := { s with ieDone := v.getLsbD 0, ieErr := v.getLsbD 1 }

/-- A write to `CMD` with BUSY = 0: silently refused while an error is pending, else the command is accepted, undecoded
(R69). -/
def acceptCommand (v : Data) (s : State) : State :=
  if s.errcode ≠ 0 then s else { s with cw := v.setWidth 32, busy := true, done := false }

/-- A checked write to `TLEN` (R70). -/
def writeTlen (v : Data) (s : State) : State :=
  if (v.setWidth 8).toNat ≤ Config.txtCap then { s with tlen := v.setWidth 7 } else raiseError .badVal 0x14 s

/-- A checked write to `KLEN` (R70). -/
def writeKlen (v : Data) (s : State) : State :=
  if (v.setWidth 8).toNat ≤ Config.keyCap then { s with klen := v.setWidth 8 } else raiseError .badVal 0x18 s

/-- A write with BUSY = 0 (R62): narrow registers take the low bits (R66); a write to a read-only or a reserved
register has no effect and raises no error (R64, R65). -/
def writeReg (v : Data) (s : State) : PortReg → State
  | .status => writeStatus v s
  | .ctrl => writeCtrl v s
  | .cmd => acceptCommand v s
  | .opa => { s with opa := v }
  | .ope => { s with ope := v }
  | .opm => { s with opm := v }
  | .acc => { s with acc := v.setWidth 40 }
  | .tlen => writeTlen v s
  | .rcnt => { s with rcnt := v.setWidth 32 }
  | .klen => writeKlen v s
  | .pos => { s with pos := v }
  | .dpos => { s with dpos := v }
  | .txt j => { s with txt := s.txt.write j.val (v.setWidth 8) }
  | .key j => { s with key := s.key.write j.val (v.setWidth 8) }
  | .id | .errinfo | .res | .v0 | .v1 | .v2 | .dout | .reserved => s

/-- A write with BUSY = 1: `STATUS` and `CTRL` as ever, every other write dropped with E_BUSYWR (R63). -/
def writeRegBusy (idx : Index) (v : Data) (s : State) : PortReg → State
  | .status => writeStatus v s
  | .ctrl => writeCtrl v s
  | .id | .errinfo | .cmd | .opa | .ope | .opm | .res | .acc | .v0 | .v1 | .v2 | .tlen | .rcnt | .klen | .pos | .dpos
  | .dout | .txt _ | .key _ | .reserved => raiseBusyWrite idx s

/-- `PortWrite(idx, v)` (R62, R63). -/
def portWrite (idx : Index) (v : Data) (s : State) : State :=
  if s.busy then writeRegBusy idx v s (regAt idx) else writeReg v s (regAt idx)

/-- The reset input: every component of the engine takes its reset value, a latched command is discarded (R215, R45).
What the host has yet to do and what it has read are outside the block (log 12). -/
def hardReset (s : State) : State := { s with toEngine := Engine.reset }

end Sys2Proof.Machine
end

