-- ==== Sys2Proof/Machine/Completion.lean ====
section
/-! DEFINITION. The completion step of the engine (spec/30_encoding.md R88) and the choice of who moves next in the
total order of steps (spec/20_memory.md R76, spec/00_scope.md R6). -/

namespace Sys2Proof.Machine

/-- The completion of the latched word, for BUSY = 1: an illegal word raises E_ILLCMD, a legal one performs its command's
rule (R88, R84). -/
def completion (s : State) : Out :=
  match decode s.cw with
  | .error _ => .next (raiseError .illCmd s.cw s)
  | .ok i => exec i s

/-- The engine's turn: its step is enabled exactly when BUSY = 1; an idle engine waits (R6, R88, log 4). -/
def engineTurn (s : State) : Out := if s.busy then completion s else .next s

/-- One turn of the schedule, already taken off it. -/
def takeTurn (t : Turn) (s : State) : Out :=
  match t with
  | .read idx => .next { s with rdata := portRead idx s }
  | .write idx v => .next (portWrite idx v s)
  | .rst => .next (hardReset s)
  | .engine => engineTurn s

/-- One atomic step of the total order of R76: the next turn of the schedule, and the engine's once the host has no more
to do (weak fairness, R6, R225; log 5). -/
def nextStep (s : State) : Out :=
  match s.turns with
  | [] => engineTurn s
  | t :: rest => takeTurn t { s with turns := rest }

/-- The state in which the engine's completion of the word `w` is the next step: `w` latched as an acceptance latches it
(R69), and the engine's turn first (log 8). -/
def latchWord (w : CmdWord) (s : State) : State :=
  { s with cw := w, busy := true, done := false, turns := .engine :: s.turns }

end Sys2Proof.Machine
end

