-- ==== Sys2Proof/Machine/Step.lean ====
section
/-! DEFINITION. The step of the whole machine, host and engine (spec/20_memory.md R76). -/

namespace Sys2Proof.Machine

/-- One atomic step (R76, R88). -/
def step (s : State) : Host.Outcome State Fault Refusal := nextStep s

/-- `s` with the command whose low `nbits` bits are `w`, the others 0, latched and about to be completed (log 8). -/
def State.withFetchWord (s : State) (nbits w : Nat) : State := latchWord (BitVec.ofNat 32 (w % 2 ^ nbits)) s

end Sys2Proof.Machine
end

