-- ==== Sys2Proof/Machine/Script.lean ====
section
/-! DEFINITION. Host activity as scripts (spec/30_encoding.md R86), the pseudo-instructions (R87) and the derivation as
the host performs it (spec/44_round_derive.md R146). Scripts are a notation, not hardware (D27): here each becomes the
turns of the schedule it stands for. -/

namespace Sys2Proof.Machine

/-- A statement of a script (R86). -/
inductive Stmt where
  /-- `WR name, value`. -/
  | wr (r : PortReg) (v : Data)
  /-- `RD name`. -/
  | rd (r : PortReg)
  /-- `MNEMONIC` or `MNEMONIC operand`. -/
  | cmd (i : Instr)
  /-- `WAIT`. -/
  | wait
deriving DecidableEq, Repr

/-- The turns a statement stands for. `WAIT` is "repeat RD STATUS until bit 0 reads 0": reads change no state of the
engine, so it is the engine's turn and the one read that then sees BUSY = 0 (log 13). -/
def Stmt.turns : Stmt → List Turn
  | .wr r v => [.write r.index v]
  | .rd r => [.read r.index]
  | .cmd i => [.write PortReg.cmd.index ((encode i).setWidth 64)]
  | .wait => [.engine, .read PortReg.status.index]

/-- The turns of a script. -/
def scriptTurns (p : List Stmt) : List Turn := p.flatMap Stmt.turns

/-- A command and the `WAIT` that follows it in every expansion (R87). -/
def issue (i : Instr) : List Stmt := [.cmd i, .wait]

/-- `ROUND`: `ROUNDS 1` (R87). -/
def pseudoRound : List Stmt := issue (.rounds 1)

/-- `HTEXT`: HINIT, then HABS of each code in order (R87). -/
def pseudoHtext (codes : List (BitVec 16)) : List Stmt :=
  issue .hinit ++ codes.flatMap fun c => issue (.habs c)

/-- `DERIVEKEY`: HTEXT, then DERIVE; the host has already appended the salt (R87). -/
def pseudoDerivekey (codes : List (BitVec 16)) : List Stmt := pseudoHtext codes ++ issue .derive

/-- `SENC`: SSTART, then SXOR and a read of DOUT for each byte (R87). -/
def pseudoSenc (bytes : List Byte) : List Stmt :=
  issue .sstart ++ bytes.flatMap fun b => issue (.sxor b) ++ [.rd .dout]

/-- `SDEC`: as SENC, then SCHK (R87). -/
def pseudoSdec (bytes : List Byte) : List Stmt := pseudoSenc bytes ++ issue .schk

/-- `DIFF`: DSTART, then DXOR and a read of DOUT for each byte (R87). -/
def pseudoDiff (bytes : List Byte) : List Stmt :=
  issue .dstart ++ bytes.flatMap fun b => issue (.dxor b) ++ [.rd .dout]

/-- `CLRERR`: `WR STATUS, 0x4` (R87). -/
def pseudoClrerr : List Stmt := [.wr .status 4]

/-- `CLRDONE`: `WR STATUS, 0x2` (R87). -/
def pseudoClrdone : List Stmt := [.wr .status 2]

/-- The full derivation of R146 from the codes of the key and the sixteen codes of the salt, which the host draws. -/
def deriveScript (keyCodes saltCodes : List (BitVec 16)) : List Stmt := pseudoDerivekey (keyCodes ++ saltCodes)

/-! ## Sequences of commands, one completion after another -/

/-- The rules of a list of commands, each performed on the state the one before it left. -/
def execAll : List Instr → State → Out
  | [], s => .next s
  | i :: is, s =>
    match exec i s with
    | .next t => execAll is t
    | .fault f => .fault f
    | .refused r => .refused r

/-- One pass over a message: the command `cmd x` for each byte, collecting what `DOUT` holds after each (the bytes a
host reads in SENC, SDEC and DIFF, R87). -/
def passBytes (cmd : Byte → Instr) : List Byte → State → Option (List Byte × State)
  | [], s => some ([], s)
  | x :: xs, s =>
    match exec (cmd x) s with
    | .next t => (passBytes cmd xs t).map fun r => (t.dout :: r.1, r.2)
    | .fault _ => none
    | .refused _ => none

/-- The same bit by bit, with the commands SBIT or DBIT: the output bits are bit 0 of `DOUT` (R38). -/
def passBits (cmd : BitVec 1 → Instr) : List Bool → State → Option (List Bool × State)
  | [], s => some ([], s)
  | b :: bs, s =>
    match exec (cmd (BitVec.ofBool b)) s with
    | .next t => (passBits cmd bs t).map fun r => (t.dout.getLsbD 0 :: r.1, r.2)
    | .fault _ => none
    | .refused _ => none

end Sys2Proof.Machine
end

