-- ==== Sys2Proof/Safety.lean ====
section
/-! DEFINITION. What the claims are stated in: the invariant of spec/10_state.md R46, the vectors that a round can leave
(spec/43_matrix_string.md R133), and what it is for a run to answer a state. -/

namespace Sys2Proof.Machine

/-- The state is one the spec calls reachable (R46), and both buffers are in canonical form (log 1). The width bounds
of R46 are in the types. -/
abbrev State.Inv (s : State) : Prop :=
  s.tlen.toNat ≤ Config.txtCap ∧ s.klen.toNat ≤ Config.keyCap ∧ s.errcode.toNat ≤ 6 ∧
  (s.busy = true → s.done = false) ∧ (s.errcode = 0 → s.errinfo = 0) ∧
  s.txt.wf Config.txtCap = true ∧ s.key.wf Config.keyCap = true

/-- `V0`, `V1`, `V2` are 2, 7 and 17 times one 40-bit value (R133: "`V0`, `V1`, `V2` are only ever `2a`, `7a`, `17a`"). -/
abbrev State.VectorOfAcc (s : State) : Prop :=
  ∃ a : BitVec 40, s.v0.toNat = 2 * a.toNat ∧ s.v1.toNat = 7 * a.toNat ∧ s.v2.toNat = 17 * a.toNat

/-- What the polynomial rolling hash of a text is, as one sum: byte `j` of `n` bytes is weighted by `37 ^ (n - 1 - j)`. -/
def polyHash (text : List Byte) : Nat :=
  ((List.range text.length).map fun j => (text.getD j 0).toNat * 37 ^ (text.length - 1 - j)).sum

/-- The number that a string of decimal digit bytes denotes. -/
def decimalValue (ds : List Byte) : Nat := ds.foldl (fun n d => n * 10 + (d.toNat - 0x30)) 0

end Sys2Proof.Machine
end

