-- ==== Sys2Proof/Certificates/Slice0/Obligations.lean ====
section
/-! DEFINITION. The statements about the Citadel KDX engine, one per entry of OBLIGATIONS.json. Each docstring names the
rules of spec/ it rests on. `complete`d states are written out as records, so that a result and its frame stand together:
whatever field a record update does not name is unchanged. -/

open Sys2Proof Sys2Proof.Machine

/-! ## Encoding and decoding -/

/-- Decoding the word of a command gives the command back, whatever its operand (R80 to R84). -/
def Obligations.DecodeInvertsEncode : Prop :=
  ∀ i : Instr, i.WellFormed = true → decode (encode i) = .ok i

/-- A word that decodes is the word of the command it decodes to: each command has one word per operand (R83, R85). -/
def Obligations.EncodeInvertsDecode : Prop :=
  ∀ (w : CmdWord) (i : Instr), decode w = .ok i → i.WellFormed = true ∧ encode i = w

/-- The decoder accepts exactly the legal words of R84, written there as a formula over the three fields, and so does
`legal`; the completion of any other word raises E_ILLCMD with the word, clears BUSY and changes nothing else. -/
def Obligations.ExactlyTheLegalWordsAreCommands : Prop :=
  ∀ w : CmdWord,
    ((∃ i, decode w = .ok i) ↔
      ((w >>> 16) &&& 0xFF#32 = 0#32 ∧
        (((w >>> 24).toNat ∈ [0x00, 0x01, 0x10, 0x12, 0x13, 0x14, 0x15, 0x16, 0x17, 0x19, 0x1A, 0x20, 0x23, 0x28] ∧
            w.toNat % 2 ^ 16 = 0) ∨
          ((w >>> 24).toNat ∈ [0x21, 0x29] ∧ w.toNat % 2 ^ 16 / 2 = 0) ∨
          ((w >>> 24).toNat ∈ [0x22, 0x2A] ∧ w.toNat % 2 ^ 16 / 2 ^ 8 = 0) ∨
          (w >>> 24).toNat ∈ [0x11, 0x18]))) ∧
    (legal w = true ↔ ∃ i, decode w = .ok i) ∧
    (legal w = false → ∀ s : State, s.cw = w →
      completion s = .next { s with
        busy := false
        errcode := if s.errcode = 0 then 1 else s.errcode
        errinfo := if s.errcode = 0 then w else s.errinfo })

/-- `CW and mask = match` selects the command, for each of the twenty rows of R83, and no word is selected by two. -/
def Obligations.MatchAndMaskSelectTheCommand : Prop :=
  (∀ (m : Mnemonic) (w : CmdWord), w &&& m.mask = m.matchWord ↔ ∃ i : Instr, i.mnemonic = m ∧ decode w = .ok i) ∧
  (∀ (m n : Mnemonic) (w : CmdWord), w &&& m.mask = m.matchWord → w &&& n.mask = n.matchWord → m = n)

/-- The words that 95_test_vectors.md section 3 works out bit by bit decode to the commands they stand for, and the
three illegal ones there decode to none. -/
def Obligations.WordsWorkedBitByBitDecode : Prop :=
  decode 0b00000001000000000000000000000000 = .ok .modpow ∧
  decode 0b00010001000000000000000001010011 = .ok (.habs 0x53) ∧
  decode 0x110020AC = .ok (.habs 0x20AC) ∧
  decode 0b00011000000000000100111000011111 = .ok (.rounds 19999) ∧
  decode 0x18004E20 = .ok (.rounds 20000) ∧ decode 0x1800FFFF = .ok (.rounds 65535) ∧
  decode 0x19000000 = .ok .derive ∧ decode 0x21000001 = .ok (.sbit 1) ∧
  decode 0b00100010000000000000000001001000 = .ok (.sxor 0x48) ∧ decode 0x23000000 = .ok .schk ∧
  decode 0x29000000 = .ok (.dbit 0) ∧ decode 0x2A0000FF = .ok (.dxor 0xFF) ∧
  decode 0x22000148 = .error .operandBits ∧ decode 0x11FF0053 = .error .reservedField ∧
  decode 0x02000000 = .error .unknownOpcode

/-- The assembler makes a command of a line exactly when the operand is in its format's range (R82, R86), and the
command's word is `op << 24 | imm` (R83). -/
def Obligations.AssemblerChecksTheOperandRange : Prop :=
  ∀ (m : Mnemonic) (n : Nat),
    ((∃ i, assemble ⟨m, n⟩ = some i) ↔ n < 2 ^ m.format.operandBits) ∧
    (∀ i, assemble ⟨m, n⟩ = some i → (encode i).toNat = m.op.toNat * 2 ^ 24 + n)

/-! ## The step, the schedule and the invariant -/

/-- When the latched word decodes to a command and the engine moves, the step is the command's own rule on the state
(R88). The schedule `turns` that says who moves is the model's (log 2): the turn taken is removed from it first. -/
def Obligations.StepRunsTheLatchedCommand : Prop :=
  ∀ (s : State) (i : Instr), s.busy = true → decode s.cw = .ok i →
    (s.turns = [] → step s = exec i s) ∧
    (∀ rest, s.turns = .engine :: rest → step s = exec i { s with turns := rest })

/-- Host turns are port accesses and reset on the state, and an idle engine's turn changes nothing (R6, R76). The
schedule and the place of the read datum are the model's (log 2, log 3, log 4). -/
def Obligations.StepTakesTheHostsTurn : Prop :=
  ∀ (s : State) (rest : List Turn),
    (∀ idx, s.turns = .read idx :: rest → step s = .next { s with turns := rest, rdata := portRead idx s }) ∧
    (∀ idx v, s.turns = .write idx v :: rest → step s = .next (portWrite idx v { s with turns := rest })) ∧
    (s.turns = .rst :: rest → step s = .next (hardReset { s with turns := rest })) ∧
    (s.busy = false → s.turns = .engine :: rest → step s = .next { s with turns := rest }) ∧
    (s.busy = false → s.turns = [] → step s = .next s)

/-- The invariant of R46 holds after reset (R45). -/
def Obligations.ResetMeetsTheInvariant : Prop :=
  State.reset.Inv ∧ State.reset.VectorOfAcc ∧ ∀ s : State, (hardReset s).Inv ∧ (hardReset s).VectorOfAcc

/-- Every step keeps the invariant of R46, from every state that meets it. -/
def Obligations.StepKeepsTheInvariant : Prop :=
  ∀ s t : State, s.Inv → step s = .next t → t.Inv

/-- Every step keeps the vector the 2-, 7- and 17-fold of one 40-bit value (R133). -/
def Obligations.StepKeepsTheVectorShape : Prop :=
  ∀ s t : State, s.VectorOfAcc → step s = .next t → t.VectorOfAcc

/-- From a state that meets the invariant every step answers a next state: no buffer access of a command is out of
range, and nothing is refused (R240: "no command can fault on a buffer access and there is no bounds error"). -/
def Obligations.StepNeverStopsFromTheInvariant : Prop :=
  ∀ s : State, s.Inv → ∃ t, step s = .next t ∧ t.Inv

/-- A BUSY engine stops being BUSY after at most one step for every turn of the schedule and one more (R6: "a BUSY
engine eventually completes"; that the engine moves once the host's turns are used up is the model's, log 5). -/
def Obligations.BusyEngineCompletes : Prop :=
  ∀ s : State, s.Inv → s.busy = true →
    ∃ k t, k ≤ s.turns.length + 1 ∧ Sys2Proof.core.run k s = .next t ∧ t.busy = false

/-- A command either performs its writes and completes, leaving the error record alone, or raises one of its own errors
with `CW` and changes nothing but BUSY and, if no error was pending, the error record. Which command raises which code,
and when, is R186's table (R88, R186, R188, R190). -/
def Obligations.CommandsAreAllOrNothing : Prop :=
  ∀ (i : Instr) (s t : State), exec i s = .next t →
    t.busy = false ∧
    ((t.done = true ∧ t.errcode = s.errcode ∧ t.errinfo = s.errinfo) ∨
      (t = { s with busy := false, errcode := t.errcode, errinfo := t.errinfo } ∧
        (s.errcode ≠ 0 → t.errcode = s.errcode ∧ t.errinfo = s.errinfo) ∧
        (s.errcode = 0 → t.errinfo = s.cw ∧
          ((t.errcode = 2 ∧ i.mnemonic = .modpow ∧ s.opm = 0) ∨
            (t.errcode = 3 ∧ i.mnemonic ∈ [.sbit, .sxor, .dbit, .dxor] ∧ s.klen = 0) ∨
            (t.errcode = 4 ∧ i.mnemonic = .schk ∧ s.pos.toNat % 8 ≠ 0)))))

/-- Where the model stops: a command that would read a buffer byte past the buffer's end. No spec rule gives such a read
a meaning (R8), and no run reaches such a state (R46): the model's choice, log 6 and log 7. -/
def Obligations.OutOfRangeLengthsStop : Prop :=
  (∀ s : State, 64 < s.tlen.toNat →
    exec .hfeed s = .fault .txtIndex ∧ exec .kload s = .fault .txtIndex ∧
    ∀ n : BitVec 16, n ≠ 0 → exec (.rounds n) s = .fault .txtIndex) ∧
  (∀ (s : State) (b : BitVec 1), 128 ≤ s.pos.toNat % s.klen.toNat → s.klen ≠ 0 →
    exec (.sbit b) s = .fault .keyIndex) ∧
  (∀ (s : State) (b : BitVec 1), 128 ≤ s.dpos.toNat % s.klen.toNat → s.klen ≠ 0 →
    exec (.dbit b) s = .fault .keyIndex) ∧
  (∀ (s : State) (x : Byte) (k : Nat), k < 8 → s.klen ≠ 0 →
    (128 ≤ (s.pos.toNat + k) % 2 ^ 64 % s.klen.toNat → exec (.sxor x) s = .fault .keyIndex) ∧
    (128 ≤ (s.dpos.toNat + k) % 2 ^ 64 % s.klen.toNat → exec (.dxor x) s = .fault .keyIndex))

/-- No command writes the latched word, the operand registers or the interrupt enables, and none touches the schedule or
what the host read (R29, R78). -/
def Obligations.CommandsKeepTheHostsRegisters : Prop :=
  ∀ (i : Instr) (s t : State), exec i s = .next t →
    t.cw = s.cw ∧ t.opa = s.opa ∧ t.ope = s.ope ∧ t.opm = s.opm ∧ t.ieDone = s.ieDone ∧ t.ieErr = s.ieErr ∧
    t.turns = s.turns ∧ t.rdata = s.rdata

/-- Which commands may write each register and buffer: every other command that answers a next state leaves it as it was
(R30 to R40, R175), every byte of both buffers included. -/
def Obligations.OnlyTheNamedCommandsWrite : Prop :=
  ∀ (i : Instr) (s t : State), exec i s = .next t →
    (i.mnemonic ≠ .modpow → t.res = s.res) ∧
    (i.mnemonic ∉ [.hinit, .habs, .hfeed, .hexp, .hmix, .hfin, .rounds, .derive] → t.acc = s.acc) ∧
    (i.mnemonic ∉ [.hmat, .hfin, .rounds, .derive] → t.v0 = s.v0 ∧ t.v1 = s.v1 ∧ t.v2 = s.v2) ∧
    (i.mnemonic ∉ [.hstr, .hfin, .rounds, .derive] → (∀ j, t.txt.read j = s.txt.read j) ∧ t.tlen = s.tlen) ∧
    (i.mnemonic ∉ [.hinit, .hfin, .rounds, .derive] → t.rcnt = s.rcnt) ∧
    (i.mnemonic ∉ [.kload, .derive] → (∀ j, t.key.read j = s.key.read j) ∧ t.klen = s.klen) ∧
    (i.mnemonic ∉ [.sstart, .sbit, .sxor] → t.pos = s.pos) ∧
    (i.mnemonic ∉ [.dstart, .dbit, .dxor] → t.dpos = s.dpos) ∧
    (i.mnemonic ∉ [.sbit, .sxor, .dbit, .dxor] → t.dout = s.dout)

/-! ## The port, the flags and errors -/

/-- The value of every index, as a number (R61). -/
def Obligations.PortReadReturnsTheRegisterMap : Prop :=
  ∀ s : State,
    portRead 0x00 s = 0x4349544144454C07 ∧
    (portRead 0x01 s).toNat =
      s.busy.toNat + 2 * s.done.toNat + 4 * (if s.errcode = 0 then 0 else 1) + 256 * s.errcode.toNat ∧
    (portRead 0x02 s).toNat = s.ieDone.toNat + 2 * s.ieErr.toNat ∧
    (portRead 0x03 s).toNat = s.errinfo.toNat ∧ (portRead 0x04 s).toNat = s.cw.toNat ∧
    portRead 0x08 s = s.opa ∧ portRead 0x09 s = s.ope ∧ portRead 0x0A s = s.opm ∧ portRead 0x0B s = s.res ∧
    (portRead 0x10 s).toNat = s.acc.toNat ∧
    (portRead 0x11 s).toNat = s.v0.toNat ∧ (portRead 0x12 s).toNat = s.v1.toNat ∧
    (portRead 0x13 s).toNat = s.v2.toNat ∧
    (portRead 0x14 s).toNat = s.tlen.toNat ∧ (portRead 0x15 s).toNat = s.rcnt.toNat ∧
    (portRead 0x18 s).toNat = s.klen.toNat ∧ portRead 0x19 s = s.pos ∧ portRead 0x1A s = s.dpos ∧
    (portRead 0x1B s).toNat = s.dout.toNat ∧
    (∀ j : Nat, j < 64 → (portRead (BitVec.ofNat 8 (0x40 + j)) s).toNat = (s.txt.read j).toNat) ∧
    (∀ j : Nat, j < 128 → (portRead (BitVec.ofNat 8 (0x80 + j)) s).toNat = (s.key.read j).toNat) ∧
    (∀ idx : Index, idx.toNat ∈ [0x05, 0x06, 0x07, 0x0C, 0x0D, 0x0E, 0x0F, 0x16, 0x17] ∨
        (0x1C ≤ idx.toNat ∧ idx.toNat ≤ 0x3F) → portRead idx s = 0)

/-- A write with BUSY = 0 to a data register or a buffer byte stores the low bits and changes nothing else (R62, R66). -/
def Obligations.IdleWriteStoresTheLowBits : Prop :=
  ∀ (s : State) (v : Data), s.busy = false →
    portWrite 0x08 v s = { s with opa := v } ∧ portWrite 0x09 v s = { s with ope := v } ∧
    portWrite 0x0A v s = { s with opm := v } ∧
    portWrite 0x10 v s = { s with acc := BitVec.ofNat 40 (v.toNat % 2 ^ 40) } ∧
    portWrite 0x15 v s = { s with rcnt := BitVec.ofNat 32 (v.toNat % 2 ^ 32) } ∧
    portWrite 0x19 v s = { s with pos := v } ∧ portWrite 0x1A v s = { s with dpos := v } ∧
    (∀ j : Nat, j < 64 → portWrite (BitVec.ofNat 8 (0x40 + j)) v s =
      { s with txt := s.txt.write j (BitVec.ofNat 8 (v.toNat % 2 ^ 8)) }) ∧
    (∀ j : Nat, j < 128 → portWrite (BitVec.ofNat 8 (0x80 + j)) v s =
      { s with key := s.key.write j (BitVec.ofNat 8 (v.toNat % 2 ^ 8)) })

/-- What the host reads after writing a data register or a buffer byte while the engine is idle: the low bits of what it
wrote, and at every other index what it read before (R61, R62, R66). The buffers are in canonical form, which is part
of the invariant. -/
def Obligations.WriteIsReadBackAndIsolated : Prop :=
  ∀ (s : State) (idx : Index) (v : Data) (n : Nat),
    s.busy = false → s.txt.wf 64 = true → s.key.wf 128 = true →
    ((idx.toNat ∈ [0x08, 0x09, 0x0A, 0x19, 0x1A] ∧ n = 64) ∨ (idx.toNat = 0x10 ∧ n = 40) ∨
      (idx.toNat = 0x15 ∧ n = 32) ∨ (0x40 ≤ idx.toNat ∧ n = 8)) →
    (portRead idx (portWrite idx v s)).toNat = v.toNat % 2 ^ n ∧
    ∀ idx', idx' ≠ idx → portRead idx' (portWrite idx v s) = portRead idx' s

/-- Reserved indices read 0, and a write to a reserved index or to a read-only register with BUSY = 0 has no effect and
raises no error (R64, R65). -/
def Obligations.ReservedAndReadOnlyIndicesIgnoreWrites : Prop :=
  ∀ (s : State) (idx : Index) (v : Data),
    (idx.toNat ∈ [0x05, 0x06, 0x07, 0x0C, 0x0D, 0x0E, 0x0F, 0x16, 0x17] ∨ (0x1C ≤ idx.toNat ∧ idx.toNat ≤ 0x3F) →
      portRead idx s = 0 ∧ (s.busy = false → portWrite idx v s = s)) ∧
    (idx.toNat ∈ [0x00, 0x03, 0x0B, 0x11, 0x12, 0x13, 0x1B] → s.busy = false → portWrite idx v s = s)

/-- With BUSY = 1 a write to STATUS or CTRL is performed, and any other write is dropped with E_BUSYWR, BUSY staying 1
(R63). -/
def Obligations.WriteWhileBusyIsDropped : Prop :=
  ∀ (s : State) (idx : Index) (v : Data), s.busy = true →
    (idx = 0x01 → portWrite idx v s = { s with
      done := if v.getLsbD 1 then false else s.done
      errcode := if v.getLsbD 2 then 0 else s.errcode
      errinfo := if v.getLsbD 2 then 0 else s.errinfo }) ∧
    (idx = 0x02 → portWrite idx v s = { s with ieDone := v.getLsbD 0, ieErr := v.getLsbD 1 }) ∧
    (idx ≠ 0x01 → idx ≠ 0x02 → portWrite idx v s = { s with
      errcode := if s.errcode = 0 then 5 else s.errcode
      errinfo := if s.errcode = 0 then BitVec.ofNat 32 idx.toNat else s.errinfo })

/-- A write to STATUS, BUSY or not: bit 1 clears DONE, bit 2 clears the error record, all other bits are ignored (R67).
A write to CTRL, BUSY or not, sets the two interrupt enables from bits 0 and 1 (R68). -/
def Obligations.StatusAndCtrlWritesWorkAtAnyTime : Prop :=
  ∀ (s : State) (v : Data),
    portWrite 0x01 v s = { s with
      done := if v.getLsbD 1 then false else s.done
      errcode := if v.getLsbD 2 then 0 else s.errcode
      errinfo := if v.getLsbD 2 then 0 else s.errinfo } ∧
    portWrite 0x02 v s = { s with ieDone := v.getLsbD 0, ieErr := v.getLsbD 1 }

/-- A write to CMD is dropped with E_BUSYWR while BUSY, silently refused while an error is pending, and else accepted
without decoding (R69). -/
def Obligations.CmdWriteIsDroppedRefusedOrAccepted : Prop :=
  ∀ (s : State) (v : Data),
    (s.busy = true → portWrite 0x04 v s = { s with
      errcode := if s.errcode = 0 then 5 else s.errcode
      errinfo := if s.errcode = 0 then 4 else s.errinfo }) ∧
    (s.busy = false → s.errcode ≠ 0 → portWrite 0x04 v s = s) ∧
    (s.busy = false → s.errcode = 0 →
      portWrite 0x04 v s = { s with cw := BitVec.ofNat 32 (v.toNat % 2 ^ 32), busy := true, done := false })

/-- Writes to TLEN and KLEN with BUSY = 0 look at the low eight bits and take them, or raise E_BADVAL (R70). -/
def Obligations.LengthWritesAreChecked : Prop :=
  ∀ (s : State) (v : Data), s.busy = false →
    (v.toNat % 256 ≤ 64 → ∃ t, portWrite 0x14 v s = t ∧ t = { s with tlen := t.tlen } ∧ t.tlen.toNat = v.toNat % 256) ∧
    (64 < v.toNat % 256 → portWrite 0x14 v s = { s with
      errcode := if s.errcode = 0 then 6 else s.errcode
      errinfo := if s.errcode = 0 then 0x14 else s.errinfo }) ∧
    (v.toNat % 256 ≤ 128 → ∃ t, portWrite 0x18 v s = t ∧ t = { s with klen := t.klen } ∧ t.klen.toNat = v.toNat % 256) ∧
    (128 < v.toNat % 256 → portWrite 0x18 v s = { s with
      errcode := if s.errcode = 0 then 6 else s.errcode
      errinfo := if s.errcode = 0 then 0x18 else s.errinfo })

/-- The error action: the first error wins, BUSY goes to 0, DONE is not set, nothing else changes; for a write while
BUSY the same but for BUSY (R188). -/
def Obligations.FirstErrorWins : Prop :=
  ∀ (e : ErrorCode) (info : BitVec 32) (idx : Index) (s : State),
    (s.errcode = 0 → raiseError e info s = { s with busy := false, errcode := e.code, errinfo := info }) ∧
    (s.errcode ≠ 0 → raiseError e info s = { s with busy := false }) ∧
    (s.errcode = 0 → raiseBusyWrite idx s = { s with errcode := 5, errinfo := BitVec.ofNat 32 idx.toNat }) ∧
    (s.errcode ≠ 0 → raiseBusyWrite idx s = s)

/-- `irq` is a function of state, and one write to STATUS deasserts it (R43, R193). -/
def Obligations.IrqIsALevelOfTheFlags : Prop :=
  ∀ s : State,
    (irq s = true ↔ (s.done = true ∧ s.ieDone = true) ∨ (s.errcode ≠ 0 ∧ s.ieErr = true)) ∧
    irq (portWrite 0x01 6 s) = false

/-- From every state with BUSY = 0, `WR STATUS, 0x6` gives BUSY = DONE = ERRCODE = 0 and changes nothing but the flags
and the error record; a command written next is accepted (R192). -/
def Obligations.EveryErrorCanBeLeft : Prop :=
  ∀ (s : State) (v : Data), s.busy = false →
    portWrite 0x01 6 s = { s with done := false, errcode := 0, errinfo := 0 } ∧
    portWrite 0x04 v (portWrite 0x01 6 s) =
      { s with done := false, errcode := 0, errinfo := 0, cw := BitVec.ofNat 32 (v.toNat % 2 ^ 32), busy := true }

/-- Reset, in any state, and the state the machine starts in: every component of the engine is 0, so every index but
that of ID reads 0, and `irq` is 0 (R45, R24). -/
def Obligations.ResetZeroesEveryComponent : Prop :=
  State.reset.toEngine = (hardReset State.reset).toEngine ∧
  ∀ s : State,
    (hardReset s).toEngine =
      { busy := false, done := false, errcode := 0, errinfo := 0, ieDone := false, ieErr := false, cw := 0,
        opa := 0, ope := 0, opm := 0, res := 0, acc := 0, v0 := 0, v1 := 0, v2 := 0, txt := [], tlen := 0, rcnt := 0,
        key := [], klen := 0, pos := 0, dpos := 0, dout := 0 } ∧
    (∀ idx : Index, idx ≠ 0 → portRead idx (hardReset s) = 0) ∧
    portRead 0 (hardReset s) = 0x4349544144454C07 ∧ irq (hardReset s) = false

/-! ## System and modular exponentiation -/

/-- NOP: the word 0; BUSY <- 0, DONE <- 1, nothing else (R100). -/
def Obligations.NopOnlyCompletes : Prop :=
  encode .nop = 0x00000000 ∧ ∀ s : State, exec .nop s = .next { s with busy := false, done := true }

/-- HINIT, SSTART and DSTART clear what they name and nothing else (R116, R156, R171). -/
def Obligations.StartCommandsClearTheirRegisters : Prop :=
  encode .hinit = 0x10000000 ∧ encode .sstart = 0x20000000 ∧ encode .dstart = 0x28000000 ∧
  ∀ s : State,
    exec .hinit s = .next { s with acc := 0, rcnt := 0, busy := false, done := true } ∧
    exec .sstart s = .next { s with pos := 0, busy := false, done := true } ∧
    exec .dstart s = .next { s with dpos := 0, busy := false, done := true }

/-- The function the engine computes by square-and-multiply is the power function modulo `m`, with the source's special
case at `m = 1` (R105). -/
def Obligations.ModpowIsThePowerFunction : Prop :=
  ∀ b e m : Nat, 1 ≤ m → modpow b e m = if m = 1 then 0 else b ^ e % m

/-- The laws of R108, for all operands and every modulus above 1. -/
def Obligations.ModpowLaws : Prop :=
  (∀ b e m : Nat, 1 < m →
    modpow b e m < m ∧ modpow b e m = modpow (b % m) e m ∧
    modpow b (2 * e) m = modpow (b * b % m) e m ∧
    modpow b (2 * e + 1) m = b * modpow (b * b % m) e m % m) ∧
  (∀ b e₁ e₂ m : Nat, 1 < m → modpow b (e₁ + e₂) m = modpow b e₁ m * modpow b e₂ m % m) ∧
  (∀ b e : Nat, modpow b e 1 = 0)

/-- MODPOW: with OPM not 0, RES takes the power and nothing else changes; with OPM = 0, E_MODZERO and RES keeps its
value (R106). -/
def Obligations.ModpowStoresThePower : Prop :=
  encode .modpow = 0x01000000 ∧
  ∀ s : State,
    (s.opm ≠ 0 → ∃ t, exec .modpow s = .next t ∧
      t = { s with res := t.res, busy := false, done := true } ∧
      t.res.toNat = (if s.opm.toNat = 1 then 0 else s.opa.toNat ^ s.ope.toNat % s.opm.toNat) ∧
      t.res.toNat < s.opm.toNat) ∧
    (s.opm = 0 → exec .modpow s = .next { s with
      busy := false
      errcode := if s.errcode = 0 then 2 else s.errcode
      errinfo := if s.errcode = 0 then s.cw else s.errinfo })

/-! ## The rolling hash -/

/-- HABS `code`: `ACC <- (ACC*37 + code) mod M3`, for every 40-bit ACC (R117). -/
def Obligations.HabsAbsorbsOneCode : Prop :=
  ∀ code : BitVec 16, encode (.habs code) = 0x11000000 ||| code.setWidth 32 ∧
    ∀ s : State, ∃ t, exec (.habs code) s = .next t ∧
      t = { s with acc := t.acc, busy := false, done := true } ∧
      t.acc.toNat = (s.acc.toNat * 37 + code.toNat) % 988144257431

/-- HFEED: ACC takes the fold of `TXT[0 .. TLEN-1]` from 0, the old ACC being discarded (R115, R118). -/
def Obligations.HfeedFoldsTheText : Prop :=
  encode .hfeed = 0x12000000 ∧
  ∀ s : State, s.tlen.toNat ≤ 64 → ∃ t, exec .hfeed s = .next t ∧
    t = { s with acc := t.acc, busy := false, done := true } ∧
    t.acc.toNat =
      (List.range s.tlen.toNat).foldl (fun a j => (a * 37 + (s.txt.read j).toNat) % 988144257431) 0

/-- The fold is the polynomial hash: the sum of the codes weighted by falling powers of 37, modulo `M3`, so the
reductions inside the fold do not show (R1, R115). -/
def Obligations.RollingHashIsThePolynomial : Prop :=
  ∀ text : List Byte, hashA text = polyHash text % 988144257431

/-- HEXP: `ACC <- ACC ^ 9941 mod M2`, below `M2`; the operand registers and RES are not touched (R119). -/
def Obligations.HexpRaisesToP1 : Prop :=
  encode .hexp = 0x13000000 ∧
  ∀ s : State, ∃ t, exec .hexp s = .next t ∧
    t = { s with acc := t.acc, busy := false, done := true } ∧
    t.acc.toNat = s.acc.toNat ^ 9941 % 99400891 ∧ t.acc.toNat < 99400891

/-- HMIX: ACC is XORed with 0x26CF on all 40 bits, bits 39:14 unchanged; a value below `M2`, which HEXP leaves, goes to
at most 99401727; and twice HMIX restores ACC (R120). -/
def Obligations.HmixXorsAndUndoesItself : Prop :=
  encode .hmix = 0x14000000 ∧
  ∀ s : State, ∃ t, exec .hmix s = .next t ∧
    t = { s with acc := s.acc ^^^ 0x26CF#40, busy := false, done := true } ∧
    t.acc.toNat / 2 ^ 14 = s.acc.toNat / 2 ^ 14 ∧
    (s.acc.toNat < 99400891 → t.acc.toNat ≤ 99401727) ∧
    ∃ u, exec .hmix t = .next u ∧ u.acc = s.acc

/-- The bounds of ACC: below `M3` after HABS and HFEED, below `M2` after HEXP, and at most 99401727 after HEXP and then
HMIX (R121, R133). -/
def Obligations.AccumulatorBounds : Prop :=
  (∀ (s t : State) (code : BitVec 16), exec (.habs code) s = .next t → t.acc.toNat < 988144257431) ∧
  (∀ s t : State, exec .hfeed s = .next t → t.acc.toNat < 988144257431) ∧
  (∀ s t u : State, exec .hexp s = .next t → exec .hmix t = .next u →
    t.acc.toNat < 99400891 ∧ u.acc.toNat ≤ 99401727)

/-! ## The vector and its text -/

/-- HMAT: V0, V1, V2 are 2, 7 and 17 times ACC, exactly, for every 40-bit ACC (R130). -/
def Obligations.HmatMultipliesByColumnZero : Prop :=
  encode .hmat = 0x15000000 ∧
  ∀ s : State, ∃ t, exec .hmat s = .next t ∧
    t = { s with v0 := t.v0, v1 := t.v1, v2 := t.v2, busy := false, done := true } ∧
    t.v0.toNat = 2 * s.acc.toNat ∧ t.v1.toNat = 7 * s.acc.toNat ∧ t.v2.toNat = 17 * s.acc.toNat

/-- The text of a vector: three decimal numerals, each with its value, ASCII digits only and no leading zero, joined by
single commas (R131, and `dec` of R7). -/
def Obligations.VectorTextIsCommaJoinedDecimal : Prop :=
  (∀ x y z : Nat, str3 x y z = dec x ++ [0x2C] ++ dec y ++ [0x2C] ++ dec z) ∧
  (∀ n : Nat, decimalValue (dec n) = n ∧ dec n ≠ [] ∧
    (∀ b ∈ dec n, 0x30 ≤ b.toNat ∧ b.toNat ≤ 0x39) ∧ (n ≠ 0 → (dec n).head? ≠ some 0x30)) ∧
  dec 0 = [0x30]

/-- HSTR: TXT from index 0 on holds the text of the vector, TLEN its length; every byte of TXT from there on keeps its
value, and nothing else changes (R132). TXT is in canonical form, which is part of the invariant. -/
def Obligations.HstrWritesTheVectorText : Prop :=
  encode .hstr = 0x16000000 ∧
  ∀ s : State, s.txt.wf 64 = true → ∃ t, exec .hstr s = .next t ∧
    t = { s with txt := t.txt, tlen := t.tlen, busy := false, done := true } ∧
    t.tlen.toNat = (str3 s.v0.toNat s.v1.toNat s.v2.toNat).length ∧
    (∀ j, j < t.tlen.toNat → (str3 s.v0.toNat s.v1.toNat s.v2.toNat)[j]? = some (t.txt.read j)) ∧
    (∀ j, t.tlen.toNat ≤ j → t.txt.read j = s.txt.read j)

/-- The length of the text: 5 to 44 for any vector, at most 42 for a vector that a machine can hold (the shape of
`StepKeepsTheVectorShape`), and 5 to 30 after HFIN, whose text has only commas and digits (R133). -/
def Obligations.TextLengthBounds : Prop :=
  (∀ s t : State, exec .hstr s = .next t →
    5 ≤ t.tlen.toNat ∧ t.tlen.toNat ≤ 44 ∧ (s.VectorOfAcc → t.tlen.toNat ≤ 42)) ∧
  (∀ s t : State, s.txt.wf 64 = true → exec .hfin s = .next t →
    5 ≤ t.tlen.toNat ∧ t.tlen.toNat ≤ 30 ∧
    ∀ j, j < t.tlen.toNat →
      t.txt.read j = 0x2C ∨ (0x30 ≤ (t.txt.read j).toNat ∧ (t.txt.read j).toNat ≤ 0x39))

/-! ## Rounds, derivation, key load -/

/-- HFIN is HEXP, HMIX, HMAT, HSTR in that order, and one more round in RCNT (R141). -/
def Obligations.HfinIsTheFourStepsAndACount : Prop :=
  encode .hfin = 0x17000000 ∧
  ∀ s : State, ∃ a b c d,
    exec .hexp s = .next a ∧ exec .hmix a = .next b ∧ exec .hmat b = .next c ∧ exec .hstr c = .next d ∧
    exec .hfin s = .next { d with rcnt := d.rcnt + 1 }

/-- ROUNDS: no round changes nothing but the flags; `n + 1` rounds are HFEED, HFIN and then `n` rounds; RCNT grows by
the count modulo `2^32`, and the command completes whenever TLEN is legal (R143). -/
def Obligations.RoundsRepeatHfeedAndHfin : Prop :=
  (∀ n : BitVec 16, encode (.rounds n) = 0x18000000 ||| n.setWidth 32) ∧
  (∀ s : State, exec (.rounds 0) s = .next { s with busy := false, done := true }) ∧
  (∀ (s : State) (n : Nat), n + 1 < 2 ^ 16 → s.tlen.toNat ≤ 64 →
    ∃ a b, exec .hfeed s = .next a ∧ exec .hfin a = .next b ∧
      exec (.rounds (BitVec.ofNat 16 (n + 1))) s = exec (.rounds (BitVec.ofNat 16 n)) b) ∧
  (∀ (s : State) (n : BitVec 16), s.tlen.toNat ≤ 64 →
    ∃ t, exec (.rounds n) s = .next t ∧ t.rcnt.toNat = (s.rcnt.toNat + n.toNat) % 2 ^ 32 ∧
      t = { s with acc := t.acc, v0 := t.v0, v1 := t.v1, v2 := t.v2, txt := t.txt, tlen := t.tlen, rcnt := t.rcnt,
                   busy := false, done := true })

/-- DERIVE is HFIN, ROUNDS 19999, KLOAD, and completes in every state (R144). -/
def Obligations.DeriveIsHfinRoundsKload : Prop :=
  encode .derive = 0x19000000 ∧
  ∀ s : State, ∃ a b t,
    exec .hfin s = .next a ∧ exec (.rounds 19999) a = .next b ∧ exec .kload b = .next t ∧
    exec .derive s = .next t ∧ t.rcnt = s.rcnt + 20000 ∧
    t = { s with acc := t.acc, v0 := t.v0, v1 := t.v1, v2 := t.v2, txt := t.txt, tlen := t.tlen, rcnt := t.rcnt,
                 key := t.key, klen := t.klen, busy := false, done := true }

/-- KLOAD copies the text to KEY, sets KLEN to TLEN, pads nothing and leaves every later byte of KEY alone (R145). KEY is
in canonical form, which is part of the invariant. -/
def Obligations.KloadCopiesTheText : Prop :=
  encode .kload = 0x1A000000 ∧
  ∀ s : State, s.tlen.toNat ≤ 64 → s.key.wf 128 = true → ∃ t, exec .kload s = .next t ∧
    t = { s with key := t.key, klen := t.klen, busy := false, done := true } ∧
    t.klen.toNat = min s.tlen.toNat 128 ∧
    (∀ j, j < t.klen.toNat → t.key.read j = s.txt.read j) ∧
    (∀ j, t.klen.toNat ≤ j → t.key.read j = s.key.read j)

/-- Where the composite commands store: HFIN exactly the text it leaves; ROUNDS and DERIVE nothing of TXT from byte 30 on,
the longest text of a round being 30 bytes; DERIVE exactly the text it leaves to KEY (R141, R143, R144, R223, and R133
for the 30). The buffers are in canonical form, which is part of the invariant. -/
def Obligations.CompositesKeepTheBufferTails : Prop :=
  ∀ s t : State, s.txt.wf 64 = true → s.key.wf 128 = true →
    (exec .hfin s = .next t → ∀ j, t.tlen.toNat ≤ j → t.txt.read j = s.txt.read j) ∧
    (∀ n, exec (.rounds n) s = .next t → ∀ j, 30 ≤ j → t.txt.read j = s.txt.read j) ∧
    (exec .derive s = .next t → (∀ j, 30 ≤ j → t.txt.read j = s.txt.read j) ∧
      t.klen.toNat = t.tlen.toNat ∧ (∀ j, j < t.klen.toNat → t.key.read j = t.txt.read j) ∧
      ∀ j, t.klen.toNat ≤ j → t.key.read j = s.key.read j)

/-- A derived key is 5 to 30 bytes and is fixed by the one number the last round leaves in ACC, below `2^27`:
`KEY = str3(2c, 7c, 17c)` (R153). -/
def Obligations.DerivedKeyIsShortAndFixedByAcc : Prop :=
  ∀ s : State, s.txt.wf 64 = true → s.key.wf 128 = true → ∃ t, exec .derive s = .next t ∧
    5 ≤ t.klen.toNat ∧ t.klen.toNat ≤ 30 ∧ t.acc.toNat < 2 ^ 27 ∧
    (List.range t.klen.toNat).map t.key.read =
      str3 (2 * t.acc.toNat) (7 * t.acc.toNat) (17 * t.acc.toNat)

/-- The streamed and the buffered derivation of R146 give the same key, text, accumulator and vector: HINIT, HABS of
every byte, DERIVE; or the bytes in TXT, ROUNDS 20000, KLOAD. The bytes are at most 64, the buffers in canonical form. -/
def Obligations.DerivationsAgree : Prop :=
  ∀ (s : State) (text : List Byte), text.length ≤ 64 → s.txt.wf 64 = true → s.key.wf 128 = true →
    ∃ a b,
      execAll ([.hinit] ++ text.map (fun c => .habs (c.setWidth 16)) ++ [.derive]) s = .next a ∧
      execAll [.rounds 20000, .kload]
        { s with txt := s.txt.writeAll 0 text, tlen := BitVec.ofNat 7 text.length } = .next b ∧
      a.klen = b.klen ∧ (∀ j, a.key.read j = b.key.read j) ∧ a.acc = b.acc ∧ a.v0 = b.v0 ∧ a.v1 = b.v1 ∧
      a.v2 = b.v2 ∧ a.tlen = b.tlen ∧ (∀ j, j < a.tlen.toNat → a.txt.read j = b.txt.read j) ∧
      a.rcnt = 20000 ∧ b.rcnt = s.rcnt + 20000

/-! ## The stream cipher -/

/-- SBIT: with a key of legal length, DOUT is `(messageBit xor keyByte) mod 2`, with the key byte at `POS mod KLEN`, and
POS moves on by one modulo `2^64`; without a key, E_NOKEY and nothing else (R155, R157, R158). -/
def Obligations.SbitXorsTheKeyStreamBit : Prop :=
  ∀ b : BitVec 1, encode (.sbit b) = 0x21000000 ||| b.setWidth 32 ∧
    ∀ s : State,
      (s.klen ≠ 0 → s.klen.toNat ≤ 128 → ∃ t, exec (.sbit b) s = .next t ∧
        t = { s with dout := t.dout, pos := t.pos, busy := false, done := true } ∧
        t.dout.toNat = (b.toNat ^^^ (s.key.read (s.pos.toNat % s.klen.toNat)).toNat) % 2 ∧
        t.pos.toNat = (s.pos.toNat + 1) % 2 ^ 64) ∧
      (s.klen = 0 → exec (.sbit b) s = .next { s with
        busy := false
        errcode := if s.errcode = 0 then 3 else s.errcode
        errinfo := if s.errcode = 0 then s.cw else s.errinfo })

/-- SXOR: bit `7 - k` of DOUT is the same bit of the operand XORed with the least significant bit of the key byte at
`(POS + k) mod 2^64 mod KLEN`; POS moves on by eight modulo `2^64`; E_NOKEY without a key. And it is eight SBITs fed the
operand's bits from bit 7 down, their outputs collected in that order (R159, R160). -/
def Obligations.SxorIsEightSbits : Prop :=
  ∀ x : Byte, encode (.sxor x) = 0x22000000 ||| x.setWidth 32 ∧
    ∀ s : State,
      (s.klen ≠ 0 → s.klen.toNat ≤ 128 → ∃ t u, exec (.sxor x) s = .next t ∧
        t = { s with dout := t.dout, pos := t.pos, busy := false, done := true } ∧
        t.pos.toNat = (s.pos.toNat + 8) % 2 ^ 64 ∧
        (∀ k, k < 8 → t.dout.getLsbD (7 - k) =
          (x.getLsbD (7 - k) ^^ (s.key.read ((s.pos.toNat + k) % 2 ^ 64 % s.klen.toNat)).getLsbD 0)) ∧
        passBits .sbit ((List.range 8).map fun k => x.getLsbD (7 - k)) s =
          some ((List.range 8).map fun k => t.dout.getLsbD (7 - k), u) ∧
        t = { u with dout := t.dout }) ∧
      (s.klen = 0 → exec (.sxor x) s = .next { s with
        busy := false
        errcode := if s.errcode = 0 then 3 else s.errcode
        errinfo := if s.errcode = 0 then s.cw else s.errinfo })

/-- SCHK: passes when POS is a multiple of 8, POS = 0 included, whatever KLEN is; else E_CTLEN and nothing else (R161). -/
def Obligations.SchkChecksTheLength : Prop :=
  encode .schk = 0x23000000 ∧
  ∀ s : State,
    (s.pos.toNat % 8 = 0 → exec .schk s = .next { s with busy := false, done := true }) ∧
    (s.pos.toNat % 8 ≠ 0 → exec .schk s = .next { s with
      busy := false
      errcode := if s.errcode = 0 then 4 else s.errcode
      errinfo := if s.errcode = 0 then s.cw else s.errinfo })

/-- The cipher is its own inverse: a second pass over the first pass's output, under the same KEY and KLEN and from the
same POS, in whatever state otherwise, gives back the message, byte for byte; a pass gives one byte per byte and moves
POS by eight per byte (R162, R163). -/
def Obligations.CipherPassUndoesItself : Prop :=
  ∀ (s : State) (msg : List Byte), s.klen ≠ 0 → s.klen.toNat ≤ 128 →
    ∃ out t, passBytes .sxor msg s = some (out, t) ∧ out.length = msg.length ∧
      t.pos.toNat = (s.pos.toNat + 8 * msg.length) % 2 ^ 64 ∧
      ∀ s' : State, s'.key = s.key → s'.klen = s.klen → s'.pos = s.pos →
        ∃ u, passBytes .sxor out s' = some (msg, u)

/-! ## The block diffuser -/

/-- The window is the circular neighbourhood of position `i mod 8`, its value's low bit is the bit after it, and that is
bit `7 - ((i + 1) mod 8)` of the key byte: the other two bits of the window never reach the output (R170). -/
def Obligations.WindowMaskIsTheNextBit : Prop :=
  ∀ (s : State) (p : BitVec 64) (kb : Nat → Bool),
    (∀ t, kb t = (s.key.read (p.toNat % s.klen.toNat)).getLsbD (7 - t)) →
    windowValue s p =
      4 * (kb ((p.toNat % 8 + 7) % 8)).toNat + 2 * (kb (p.toNat % 8)).toNat + (kb ((p.toNat % 8 + 1) % 8)).toNat ∧
    windowValue s p ≤ 7 ∧
    (dbitmask s p).toNat = windowValue s p % 2 ∧
    dbitmask s p = (s.key.read (p.toNat % s.klen.toNat)).getLsbD (7 - (p.toNat + 1) % 8)

/-- DBIT: with a key of legal length, DOUT is the operand bit XORed with bit `7 - ((DPOS + 1) mod 8)` of the key byte at
`DPOS mod KLEN`, and DPOS moves on by one modulo `2^64`; E_NOKEY without a key (R170, R172). -/
def Obligations.DbitXorsTheWindowBit : Prop :=
  ∀ b : BitVec 1, encode (.dbit b) = 0x29000000 ||| b.setWidth 32 ∧
    ∀ s : State,
      (s.klen ≠ 0 → s.klen.toNat ≤ 128 → ∃ t, exec (.dbit b) s = .next t ∧
        t = { s with dout := t.dout, dpos := t.dpos, busy := false, done := true } ∧
        t.dout.toNat = (b.getLsbD 0 ^^
          (s.key.read (s.dpos.toNat % s.klen.toNat)).getLsbD (7 - (s.dpos.toNat + 1) % 8)).toNat ∧
        t.dpos.toNat = (s.dpos.toNat + 1) % 2 ^ 64) ∧
      (s.klen = 0 → exec (.dbit b) s = .next { s with
        busy := false
        errcode := if s.errcode = 0 then 3 else s.errcode
        errinfo := if s.errcode = 0 then s.cw else s.errinfo })

/-- DXOR: as SXOR, with the window's mask bit and DPOS, and it is eight DBITs (R173). -/
def Obligations.DxorIsEightDbits : Prop :=
  ∀ x : Byte, encode (.dxor x) = 0x2A000000 ||| x.setWidth 32 ∧
    ∀ s : State,
      (s.klen ≠ 0 → s.klen.toNat ≤ 128 → ∃ t u, exec (.dxor x) s = .next t ∧
        t = { s with dout := t.dout, dpos := t.dpos, busy := false, done := true } ∧
        t.dpos.toNat = (s.dpos.toNat + 8) % 2 ^ 64 ∧
        (∀ k, k < 8 → t.dout.getLsbD (7 - k) = (x.getLsbD (7 - k) ^^
          (s.key.read ((s.dpos.toNat + k) % 2 ^ 64 % s.klen.toNat)).getLsbD
            (7 - ((s.dpos.toNat + k) % 2 ^ 64 + 1) % 8))) ∧
        passBits .dbit ((List.range 8).map fun k => x.getLsbD (7 - k)) s =
          some ((List.range 8).map fun k => t.dout.getLsbD (7 - k), u) ∧
        t = { u with dout := t.dout }) ∧
      (s.klen = 0 → exec (.dxor x) s = .next { s with
        busy := false
        errcode := if s.errcode = 0 then 3 else s.errcode
        errinfo := if s.errcode = 0 then s.cw else s.errinfo })

/-- The diffuser is its own inverse under the same KEY and KLEN and from the same DPOS, in whatever state otherwise
(R174), and a pass gives one byte per byte (R176). -/
def Obligations.DiffuserPassUndoesItself : Prop :=
  ∀ (s : State) (block : List Byte), s.klen ≠ 0 → s.klen.toNat ≤ 128 →
    ∃ out t, passBytes .dxor block s = some (out, t) ∧ out.length = block.length ∧
      t.dpos.toNat = (s.dpos.toNat + 8 * block.length) % 2 ^ 64 ∧
      ∀ s' : State, s'.key = s.key → s'.klen = s.klen → s'.dpos = s.dpos →
        ∃ u, passBytes .dxor out s' = some (block, u)

/-- The two families do not disturb each other: a diffuser command before a cipher command changes neither its output nor
POS, and the other way round (R175). -/
def Obligations.CipherAndDiffuserAreIndependent : Prop :=
  (∀ (s t u : State) (d c : Instr), d.mnemonic ∈ [.dstart, .dbit, .dxor] → c.mnemonic ∈ [.sbit, .sxor] →
    s.klen ≠ 0 → exec d s = .next t → exec c s = .next u →
    ∃ v, exec c t = .next v ∧ v.dout = u.dout ∧ v.pos = u.pos) ∧
  (∀ (s t u : State) (d c : Instr), d.mnemonic ∈ [.sstart, .sbit, .sxor, .schk] → c.mnemonic ∈ [.dbit, .dxor] →
    s.klen ≠ 0 → exec d s = .next t → exec c s = .next u →
    ∃ v, exec c t = .next v ∧ v.dout = u.dout ∧ v.dpos = u.dpos)
end

