-- ==== Sys2Proof/Laws/Arith.lean ====
section
/-! SUPPORT. What the arithmetic of the engine gives: the loop of square-and-multiply (spec/41_modexp.md R107), the
bounds of the rolling hash and of a round (spec/42_hash.md R121, spec/43_matrix_string.md R133), and the shape of a
decimal numeral. -/

namespace Sys2Proof.Machine

/-! ## Square-and-multiply -/

/-- What the loop leaves, modulo `m`, once it has room for every bit of the exponent. -/
theorem modpowLoop_mod (m : Nat) (fuel r b e : Nat) (he : e < 2 ^ fuel) :
    modpowLoop m fuel r b e % m = r * b ^ e % m := by
  induction fuel generalizing r b e with
  | zero =>
    have : e = 0 := by simpa using he
    subst this
    rw [modpowLoop, pow_zero, mul_one]
  | succ fuel ih =>
    rw [modpowLoop]
    split_ifs with h0 h1
    · subst h0; rw [pow_zero, mul_one]
    · rw [ih _ _ _ (by omega), Nat.mul_mod, Nat.mod_mod, ← Nat.pow_mod, ← Nat.mul_mod]
      conv_rhs => rw [← Nat.div_add_mod e 2, h1, pow_succ, pow_mul, pow_two]
      ring_nf
    · have h1 : e % 2 = 0 := by omega
      rw [ih _ _ _ (by omega), Nat.mul_mod, ← Nat.pow_mod, ← Nat.mul_mod]
      conv_rhs => rw [← Nat.div_add_mod e 2, h1, add_zero, pow_mul, pow_two]

/-- The loop keeps its result below the modulus. -/
theorem modpowLoop_lt {m : Nat} (fuel r b e : Nat) (hr : r < m) : modpowLoop m fuel r b e < m := by
  induction fuel generalizing r b e with
  | zero => exact hr
  | succ fuel ih =>
    rw [modpowLoop]
    split_ifs
    · exact hr
    · exact ih _ _ _ (Nat.mod_lt _ (by omega))
    · exact ih _ _ _ hr

/-- `modpow(b, e, m) < m` for `m >= 1` (R105). -/
theorem modpow_lt {m : Nat} (b e : Nat) (hm : 1 ≤ m) : modpow b e m < m := by
  rw [modpow]
  split_ifs with h
  · omega
  · exact modpowLoop_lt _ _ _ _ (by omega)

/-! ## The rolling hash and a round -/

/-- An absorbed value is below `M3` (R115). -/
theorem absorb_lt (a c : Nat) : absorb a c < 988144257431 := Nat.mod_lt _ (by decide)

/-- A fold from a value below `M3` stays below it (R121). -/
theorem foldText_lt (text : List Byte) {a : Nat} (ha : a < 988144257431) : foldText text a < 988144257431 := by
  induction text generalizing a with
  | nil => exact ha
  | cons c text ih => exact ih (absorb_lt _ _)

/-- The hash of a text is below `M3` (R121). -/
theorem hashA_lt (text : List Byte) : hashA text < 988144257431 := foldText_lt text (by decide)

/-- Step b leaves a value below `M2` (R119). -/
theorem expStep_lt (a : Nat) : expStep a < 99400891 := modpow_lt _ _ (by decide)

/-- The XOR with the 14-bit constant keeps a value inside its block of `2^14` (R120). -/
theorem mixStep_div (a : Nat) : mixStep a / 2 ^ 14 = a / 2 ^ 14 := by
  rw [mixStep, ← Nat.shiftRight_eq_div_pow, ← Nat.shiftRight_eq_div_pow, Nat.shiftRight_xor_distrib]
  simp [Config.xk]

/-- Step c after step b leaves at most 99401727 (R120, R133). -/
theorem mixStep_expStep_le (a : Nat) : mixStep (expStep a) ≤ 99401727 := by
  have h1 := expStep_lt a
  have h2 := mixStep_div (expStep a)
  omega

/-- Step c keeps a 40-bit value a 40-bit value (R120). -/
theorem mixStep_lt {a : Nat} (ha : a < 2 ^ 40) : mixStep a < 2 ^ 40 := by
  have h2 := mixStep_div a
  omega

@[simp] theorem matRow_zero (a : Nat) : matRow 0 a = 2 * a := rfl
@[simp] theorem matRow_one (a : Nat) : matRow 1 a = 7 * a := rfl
@[simp] theorem matRow_two (a : Nat) : matRow 2 a = 17 * a := rfl

/-! ## Decimal numerals -/

/-- The digits of a numeral come before what was there. -/
theorem decLoop_append (fuel n : Nat) (tail : List Byte) : decLoop fuel n tail = decLoop fuel n [] ++ tail := by
  induction fuel generalizing n tail with
  | zero => rfl
  | succ fuel ih =>
    rw [decLoop, decLoop]
    split_ifs
    · rfl
    · rw [ih, ih (n / 10) [digitByte (n % 10)], List.append_assoc]; rfl

/-- A numeral below ten is its one digit. -/
theorem decLoop_small {fuel n : Nat} (hf : 0 < fuel) (h : n < 10) : decLoop fuel n [] = [digitByte n] := by
  obtain ⟨f, rfl⟩ : ∃ f, fuel = f + 1 := ⟨fuel - 1, by omega⟩
  rw [decLoop, if_pos h]

/-- A longer numeral is the numeral of its tens and then its last digit. -/
theorem decLoop_large {fuel n : Nat} (h : 10 ≤ n) :
    decLoop (fuel + 1) n [] = decLoop fuel (n / 10) [] ++ [digitByte (n % 10)] := by
  rw [decLoop, if_neg (by omega), decLoop_append]

/-- Room for every bit is room for every digit. -/
theorem lt_ten_pow_log2 (n : Nat) : n < 10 ^ (n.log2 + 1) :=
  lt_of_lt_of_le Nat.lt_log2_self (Nat.pow_le_pow_left (by decide) _)

/-- With enough room the fuel does not matter. -/
theorem decLoop_fuel {f g n : Nat} (hf : 0 < f) (hg : 0 < g) (hnf : n < 10 ^ f) (hng : n < 10 ^ g) :
    decLoop f n [] = decLoop g n [] := by
  induction f generalizing g n with
  | zero => omega
  | succ f ih =>
    obtain ⟨g, rfl⟩ : ∃ k, g = k + 1 := ⟨g - 1, by omega⟩
    by_cases h : n < 10
    · rw [decLoop_small hf h, decLoop_small hg h]
    · rw [decLoop_large (by omega), decLoop_large (by omega)]
      have hf' : 0 < f := by
        rcases Nat.eq_zero_or_pos f with rfl | h'
        · rw [Nat.zero_add, pow_one] at hnf; omega
        · exact h'
      have hg' : 0 < g := by
        rcases Nat.eq_zero_or_pos g with rfl | h'
        · rw [Nat.zero_add, pow_one] at hng; omega
        · exact h'
      rw [pow_succ] at hnf hng
      rw [ih hf' hg' (by omega) (by omega)]

/-- The numeral of a number below ten. -/
theorem dec_small {n : Nat} (h : n < 10) : dec n = [digitByte n] := decLoop_small (Nat.succ_pos _) h

/-- The numeral of a larger number. -/
theorem dec_large {n : Nat} (h : 10 ≤ n) : dec n = dec (n / 10) ++ [digitByte (n % 10)] := by
  have hl := lt_ten_pow_log2 n
  rw [dec, decLoop_large h, dec]
  have h0 : 0 < n.log2 := by
    rcases Nat.eq_zero_or_pos n.log2 with h' | h'
    · rw [h', Nat.zero_add, pow_one] at hl; omega
    · exact h'
  rw [pow_succ] at hl
  rw [decLoop_fuel h0 (Nat.succ_pos _) (by omega) (lt_ten_pow_log2 _)]

/-- A numeral has at least one digit. -/
theorem dec_length_pos (n : Nat) : 1 ≤ (dec n).length := by
  by_cases h : n < 10
  · rw [dec_small h]; exact Nat.le_refl 1
  · rw [dec_large (by omega), List.length_append]; exact Nat.le_add_left 1 _

/-- A number below `10 ^ k` has at most `k` digits. -/
theorem dec_length_le {k n : Nat} (hk : 0 < k) (h : n < 10 ^ k) : (dec n).length ≤ k := by
  induction k generalizing n with
  | zero => omega
  | succ k ih =>
    by_cases hn : n < 10
    · rw [dec_small hn]; exact Nat.succ_le_succ (Nat.zero_le _)
    · have hk' : 0 < k := by
        rcases Nat.eq_zero_or_pos k with rfl | h'
        · rw [Nat.zero_add, pow_one] at h; omega
        · exact h'
      rw [pow_succ] at h
      rw [dec_large (by omega), List.length_append]
      exact Nat.succ_le_succ (ih hk' (by omega))

/-- The length of the text of a vector (R131). -/
theorem str3_length (x y z : Nat) :
    (str3 x y z).length = (dec x).length + (dec y).length + (dec z).length + 2 := by
  simp only [str3, List.length_append, List.length_cons, List.length_nil]; omega

/-- The text of any three 45-bit values has 5 to 44 bytes (R133). -/
theorem str3_length_bounds {x y z : Nat} (hx : x < 2 ^ 45) (hy : y < 2 ^ 45) (hz : z < 2 ^ 45) :
    5 ≤ (str3 x y z).length ∧ (str3 x y z).length ≤ 44 := by
  have := dec_length_le (k := 14) (by decide) (show x < 10 ^ 14 by omega)
  have := dec_length_le (k := 14) (by decide) (show y < 10 ^ 14 by omega)
  have := dec_length_le (k := 14) (by decide) (show z < 10 ^ 14 by omega)
  have := dec_length_pos x
  have := dec_length_pos y
  have := dec_length_pos z
  rw [str3_length]; omega

/-- The text a round leaves has 5 to 30 bytes (R133). -/
theorem roundTail_text_length (a : Nat) :
    5 ≤ (roundTail a).text.length ∧ (roundTail a).text.length ≤ 30 := by
  have hc := mixStep_expStep_le a
  simp only [roundTail, str3_length, matRow_zero, matRow_one, matRow_two]
  have := dec_length_le (k := 9) (by decide) (show 2 * mixStep (expStep a) < 10 ^ 9 by omega)
  have := dec_length_le (k := 9) (by decide) (show 7 * mixStep (expStep a) < 10 ^ 9 by omega)
  have := dec_length_le (k := 10) (by decide) (show 17 * mixStep (expStep a) < 10 ^ 10 by omega)
  have := dec_length_pos (2 * mixStep (expStep a))
  have := dec_length_pos (7 * mixStep (expStep a))
  have := dec_length_pos (17 * mixStep (expStep a))
  omega

end Sys2Proof.Machine
end

