-- ==== Sys2Proof/Laws/PerInstr.lean ====
section
/-! SUPPORT. One lemma per command of a statement about commands as syntax: every command's operand fits its format and
its line assembles back to it (spec/30_encoding.md R81, R82, R86). -/

namespace Sys2Proof.Laws.OperandFits

/-- The command is well formed, and the assembler gives it back from the line that writes it. -/
def Statement (i : Instr) : Prop := i.WellFormed = true ∧ assemble i.line = some i

theorem of_noOperand {i : Instr} (h : i.WellFormed = true) (hi : i.mnemonic.instr (BitVec.ofNat 16 i.operand) = i) :
    Statement i := ⟨h, by rw [assemble, if_pos (by exact h)]; exact congrArg some hi⟩

theorem nop : Statement .nop := of_noOperand rfl rfl
theorem modpow : Statement .modpow := of_noOperand rfl rfl
theorem hinit : Statement .hinit := of_noOperand rfl rfl
theorem hfeed : Statement .hfeed := of_noOperand rfl rfl
theorem hexp : Statement .hexp := of_noOperand rfl rfl
theorem hmix : Statement .hmix := of_noOperand rfl rfl
theorem hmat : Statement .hmat := of_noOperand rfl rfl
theorem hstr : Statement .hstr := of_noOperand rfl rfl
theorem hfin : Statement .hfin := of_noOperand rfl rfl
theorem derive : Statement .derive := of_noOperand rfl rfl
theorem kload : Statement .kload := of_noOperand rfl rfl
theorem sstart : Statement .sstart := of_noOperand rfl rfl
theorem schk : Statement .schk := of_noOperand rfl rfl
theorem dstart : Statement .dstart := of_noOperand rfl rfl

theorem habs (code : BitVec 16) : Statement (.habs code) :=
  of_noOperand (decide_eq_true code.isLt) (congrArg Instr.habs (BitVec.ofNat_toNat 16 code |>.trans (by simp)))

theorem rounds (n : BitVec 16) : Statement (.rounds n) :=
  of_noOperand (decide_eq_true n.isLt) (congrArg Instr.rounds (BitVec.ofNat_toNat 16 n |>.trans (by simp)))

/-- The low bits of a zero-extended operand are the operand. -/
theorem low_bits {k : Nat} (b : BitVec k) (hk : k ≤ 16) : (BitVec.ofNat 16 b.toNat).extractLsb' 0 k = b := by
  apply BitVec.eq_of_toNat_eq
  have h1 : b.toNat < 2 ^ k := b.isLt
  have h2 : (2 : Nat) ^ k ≤ 2 ^ 16 := Nat.pow_le_pow_right (by decide) hk
  rw [BitVec.extractLsb'_toNat, Nat.shiftRight_zero, BitVec.toNat_ofNat, Nat.mod_eq_of_lt (a := b.toNat) (by omega),
    Nat.mod_eq_of_lt h1]

theorem sbit (b : BitVec 1) : Statement (.sbit b) :=
  of_noOperand (decide_eq_true b.isLt) (congrArg Instr.sbit (low_bits b (by decide)))

theorem sxor (x : Byte) : Statement (.sxor x) :=
  of_noOperand (decide_eq_true x.isLt) (congrArg Instr.sxor (low_bits x (by decide)))

theorem dbit (b : BitVec 1) : Statement (.dbit b) :=
  of_noOperand (decide_eq_true b.isLt) (congrArg Instr.dbit (low_bits b (by decide)))

theorem dxor (x : Byte) : Statement (.dxor x) :=
  of_noOperand (decide_eq_true x.isLt) (congrArg Instr.dxor (low_bits x (by decide)))

end Sys2Proof.Laws.OperandFits
end

