-- ==== Sys2Proof/Laws/Decode.lean ====
section
/-! SUPPORT. The fields of a command word, and what the decoder can answer (spec/30_encoding.md R80 to R84). -/

namespace Sys2Proof

/-! ## Fields -/

theorem opField_toNat (w : CmdWord) : (opField w).toNat = w.toNat / 2 ^ 24 := by
  have := w.isLt
  rw [opField, BitVec.extractLsb'_toNat, Nat.shiftRight_eq_div_pow, Nat.mod_eq_of_lt (by omega)]

theorem zField_toNat (w : CmdWord) : (zField w).toNat = w.toNat / 2 ^ 16 % 2 ^ 8 := by
  rw [zField, BitVec.extractLsb'_toNat, Nat.shiftRight_eq_div_pow]

theorem immField_toNat (w : CmdWord) : (immField w).toNat = w.toNat % 2 ^ 16 := by
  rw [immField, BitVec.extractLsb'_toNat, Nat.shiftRight_zero]

theorem wordOf_toNat (op : BitVec 8) (imm : BitVec 16) : (wordOf op imm).toNat = op.toNat * 2 ^ 24 + imm.toNat := by
  have h1 := op.isLt
  have h2 := imm.isLt
  have hop : (op.setWidth 32 <<< 24).toNat = op.toNat * 2 ^ 24 := by
    rw [BitVec.toNat_shiftLeft, BitVec.toNat_setWidth, Nat.shiftLeft_eq, Nat.mod_eq_of_lt (a := op.toNat) (by omega),
      Nat.mod_eq_of_lt (by omega)]
  have himm : (imm.setWidth 32).toNat = imm.toNat := by
    rw [BitVec.toNat_setWidth, Nat.mod_eq_of_lt (by omega)]
  rw [wordOf, BitVec.toNat_or, hop, himm, Nat.mul_comm, ← Nat.two_pow_add_eq_or_of_lt (by omega)]

/-- A word is determined by its three fields (R80). -/
theorem word_ext {w w' : CmdWord} (h1 : opField w = opField w') (h2 : zField w = zField w')
    (h3 : immField w = immField w') : w = w' := by
  have h1 := congrArg BitVec.toNat h1
  have h2 := congrArg BitVec.toNat h2
  have h3 := congrArg BitVec.toNat h3
  rw [opField_toNat, opField_toNat] at h1
  rw [zField_toNat, zField_toNat] at h2
  rw [immField_toNat, immField_toNat] at h3
  exact BitVec.eq_of_toNat_eq (by omega)

@[simp] theorem opField_wordOf (op : BitVec 8) (imm : BitVec 16) : opField (wordOf op imm) = op := by
  have := imm.isLt
  exact BitVec.eq_of_toNat_eq (by rw [opField_toNat, wordOf_toNat]; omega)

@[simp] theorem zField_wordOf (op : BitVec 8) (imm : BitVec 16) : zField (wordOf op imm) = 0 := by
  have := imm.isLt
  exact BitVec.eq_of_toNat_eq (by rw [zField_toNat, wordOf_toNat]; show _ = 0; omega)

@[simp] theorem immField_wordOf (op : BitVec 8) (imm : BitVec 16) : immField (wordOf op imm) = imm := by
  have := imm.isLt
  exact BitVec.eq_of_toNat_eq (by rw [immField_toNat, wordOf_toNat]; omega)

/-! ## Opcodes -/

theorem mnemonicOfOp_op (m : Mnemonic) : mnemonicOfOp m.op = some m := by cases m <;> rfl

theorem op_of_mnemonicOfOp {o : BitVec 8} {m : Mnemonic} (h : mnemonicOfOp o = some m) : m.op = o := by
  simpa using List.find?_some h

/-- The twenty opcodes are pairwise different (R83). -/
theorem Mnemonic.op_injective {m n : Mnemonic} (h : m.op = n.op) : m = n := by
  have := mnemonicOfOp_op m
  rw [h, mnemonicOfOp_op] at this
  exact (Option.some.inj this).symm

/-! ## Operands -/

/-- What a format admits, as a bound (R81). -/
theorem Format.admits_iff {f : Format} {n : Nat} : f.admits n = true ↔ n < 2 ^ f.operandBits := decide_eq_true_iff

theorem Instr.operand_lt (i : Instr) : i.operand < 2 ^ 16 := by
  cases i <;> first | exact Nat.lt_of_lt_of_le (BitVec.isLt _) (by decide) | exact (by decide : 0 < 2 ^ 16)

theorem Instr.imm_toNat (i : Instr) : i.imm.toNat = i.operand := by
  rw [Instr.imm, BitVec.toNat_ofNat, Nat.mod_eq_of_lt i.operand_lt]

@[simp] theorem Mnemonic.instr_mnemonic (m : Mnemonic) (imm : BitVec 16) : (m.instr imm).mnemonic = m := by
  cases m <;> rfl

/-- The command of a mnemonic keeps an immediate field that its format admits (R81). -/
theorem Mnemonic.instr_imm {m : Mnemonic} {imm : BitVec 16} (h : m.format.admits imm.toNat = true) :
    (m.instr imm).imm = imm := by
  apply BitVec.eq_of_toNat_eq
  rw [Instr.imm_toNat]
  have h := of_decide_eq_true h
  cases m
  case habs | rounds => rfl
  case sbit | dbit | sxor | dxor =>
    exact (BitVec.extractLsb'_toNat ..).trans ((congrArg (· % _) (Nat.shiftRight_zero ..)).trans (Nat.mod_eq_of_lt h))
  all_goals exact (Nat.lt_one_iff.1 h).symm

/-! ## The decoder -/

/-- When the decoder answers a command, and which (R84). -/
theorem decode_ok {w : CmdWord} {i : Instr} (h : decode w = .ok i) :
    ∃ m : Mnemonic, opField w = m.op ∧ zField w = 0 ∧ m.format.admits (immField w).toNat = true ∧ i = m.instr (immField w) := by
  rw [decode] at h
  split at h
  · cases h
  · rename_i m hm
    split_ifs at h with h1 h2
    · cases h
      exact ⟨m, (op_of_mnemonicOfOp hm).symm, of_not_not h1, h2, rfl⟩

/-- A word whose fields fit a command decodes to it (R83). -/
theorem decode_of_fields {w : CmdWord} {m : Mnemonic} (h1 : opField w = m.op) (h2 : zField w = 0)
    (h3 : m.format.admits (immField w).toNat = true) : decode w = .ok (m.instr (immField w)) := by
  simp only [decode, h1, mnemonicOfOp_op, h2, h3, ne_eq, not_true_eq_false, if_false, if_true]

end Sys2Proof
end

