-- ==== Sys2Proof/Laws/Operands.lean ====
section
/-! SUPPORT. What the operand forms of the cipher and the diffuser give, bit by bit (spec/45_stream_cipher.md R155, R159,
spec/46_block_diffuser.md R170, R173). -/

namespace Sys2Proof.Machine

/-- The `k`-th position from `p` (R240). -/
theorem posAt_toNat (p : BitVec 64) (k : Nat) : (posAt p k).toNat = (p.toNat + k) % 2 ^ 64 := by
  rw [posAt, BitVec.toNat_add, BitVec.toNat_ofNat, Nat.add_mod_mod]

@[simp] theorem posAt_zero (p : BitVec 64) : posAt p 0 = p := by simp [posAt]

/-- Positions count on from one another. -/
theorem posAt_posAt (p : BitVec 64) (j k : Nat) : posAt (posAt p j) k = posAt p (j + k) := by
  rw [posAt, posAt, posAt, BitVec.add_assoc, BitVec.ofNat_add]

/-- One bit in `DOUT` (R38). -/
theorem bitByte_toNat (b : Bool) : (bitByte b).toNat = b.toNat := by cases b <;> rfl

/-- The first of eight packed bits is bit 7 (R159, R173). -/
theorem packBits_getLsbD (o : Nat → Bool) {k : Nat} (hk : k < 8) : (packBits o).getLsbD (7 - k) = o k := by
  have h : ∀ a b c d e f g h : Bool, ∀ k, k < 8 →
      (BitVec.ofBoolListBE [a, b, c, d, e, f, g, h]).getLsbD (7 - k) = [a, b, c, d, e, f, g, h].getD k false := by
    decide
  rw [packBits, h _ _ _ _ _ _ _ _ k hk]
  match k, hk with
  | 0, _ | 1, _ | 2, _ | 3, _ | 4, _ | 5, _ | 6, _ | 7, _ => rfl

/-- Each bit of a byte is XORed with the mask bit of its own position (R159, R173). -/
theorem xorByte_getLsbD (mask : BitVec 64 → Bool) (p : BitVec 64) (x : Byte) {k : Nat} (hk : k < 8) :
    (xorByte mask p x).getLsbD (7 - k) = (x.getLsbD (7 - k) ^^ mask (posAt p k)) := packBits_getLsbD _ hk

/-- Two bytes that agree in every bit counted from bit 7 are one. -/
theorem byte_ext {x y : Byte} (h : ∀ k, k < 8 → x.getLsbD (7 - k) = y.getLsbD (7 - k)) : x = y := by
  apply BitVec.eq_of_getLsbD_eq
  intro i hi
  have := h (7 - i) (by omega)
  rwa [show 7 - (7 - i) = i by omega] at this

/-- The bit of the window that reaches the output is the one after position `p mod 8` (R170). -/
theorem dbitmask_eq (s : State) (p : BitVec 64) : dbitmask s p = msbBit (keyByteAt s p) ((p.toNat % 8 + 1) % 8) := by
  have h : ∀ a b c : Bool, ((4 * a.toNat + 2 * b.toNat + c.toNat) % 2 == 1) = c := by decide
  exact h _ _ _

/-- The key bytes of `n` positions all exist exactly when each index is below 128. -/
theorem keyInRange_iff (s : State) (p : BitVec 64) (n : Nat) :
    keyInRange s p n = true ↔ ∀ k, k < n → (p.toNat + k) % 2 ^ 64 % s.klen.toNat < 128 := by
  rw [keyInRange, List.all_eq_true]
  constructor
  · intro h k hk
    rw [← posAt_toNat]
    exact of_decide_eq_true (h k (List.mem_range.2 hk))
  · intro h k hk
    have := h k (List.mem_range.1 hk)
    rw [← posAt_toNat] at this
    exact decide_eq_true this

end Sys2Proof.Machine
end

