-- ==== Sys2Proof/Laws/Memory.lean ====
section
/-! SUPPORT. The laws of the byte buffers: a read after a write, and that every operation keeps the canonical form
(log 1). -/

namespace Sys2Proof.Machine

theorem memory_wfFrom_cons {lo cap a : Nat} {b : Byte} {rest : Memory} :
    Memory.wfFrom lo cap ((a, b) :: rest) = true ↔
      lo ≤ a ∧ a < cap ∧ b ≠ 0 ∧ Memory.wfFrom (a + 1) cap rest = true := by
  simp [Memory.wfFrom, and_assoc]

/-- A canonical buffer is canonical from any lower bound. -/
theorem memory_wfFrom_mono {lo lo' cap : Nat} {m : Memory} (h : lo' ≤ lo) (hm : Memory.wfFrom lo cap m = true) :
    Memory.wfFrom lo' cap m = true := by
  cases m with
  | nil => rfl
  | cons c rest =>
    obtain ⟨a, b⟩ := c
    rw [memory_wfFrom_cons] at hm ⊢
    exact ⟨by omega, hm.2⟩

/-- Below its lower bound a canonical buffer lists nothing. -/
theorem memory_read_below {lo cap j : Nat} {m : Memory} (hm : Memory.wfFrom lo cap m = true) (hj : j < lo) :
    m.read j = 0 := by
  induction m generalizing lo with
  | nil => rfl
  | cons c rest ih =>
    obtain ⟨a, b⟩ := c
    rw [memory_wfFrom_cons] at hm
    rw [Memory.read, if_neg (by omega)]
    exact ih hm.2.2.2 (by omega)

/-- Reading any byte after a write of one byte. -/
theorem memory_read_write {lo cap : Nat} {m : Memory} (hm : Memory.wfFrom lo cap m = true) (j k : Nat) (b : Byte) :
    (m.write j b).read k = if k = j then b else m.read k := by
  induction m generalizing lo with
  | nil =>
    rw [Memory.write]
    split_ifs with hb hk hk
    · exact hb.symm
    · rfl
    · simp only [Memory.read, hk.symm, if_true]
    · simp only [Memory.read, Ne.symm hk, if_false]
  | cons c rest ih =>
    obtain ⟨a, x⟩ := c
    rw [memory_wfFrom_cons] at hm
    have below := fun {i : Nat} (hi : i < a + 1) => memory_read_below hm.2.2.2 hi
    rw [Memory.write]
    split
    · rw [Memory.read, ih hm.2.2.2, Memory.read]
      split_ifs <;> first | rfl | omega
    · split
      · rename_i haj; subst haj
        by_cases hb : b = 0
        · rw [if_pos hb, Memory.read]
          split_ifs with h1 h2
          · subst h1; rw [hb]; exact below (by omega)
          · exact absurd h2.symm h1
          · rfl
        · rw [if_neg hb, Memory.read, Memory.read]
          split_ifs <;> first | rfl | omega
      · by_cases hb : b = 0
        · rw [if_pos hb]
          split_ifs with h1
          · subst h1
            rw [Memory.read, if_neg (by omega), hb]; exact below (by omega)
          · rfl
        · rw [if_neg hb, Memory.read, Memory.read]
          split_ifs <;> first | rfl | omega

/-- A write of one byte inside the buffer keeps the canonical form. -/
theorem memory_write_wfFrom {lo cap : Nat} {m : Memory} (hm : Memory.wfFrom lo cap m = true) {j : Nat} (b : Byte)
    (hlo : lo ≤ j) (hcap : j < cap) : Memory.wfFrom lo cap (m.write j b) = true := by
  induction m generalizing lo with
  | nil =>
    rw [Memory.write]
    split
    · rfl
    · rename_i hb
      exact memory_wfFrom_cons.2 ⟨hlo, hcap, hb, rfl⟩
  | cons c rest ih =>
    obtain ⟨a, x⟩ := c
    rw [memory_wfFrom_cons] at hm
    rw [Memory.write]
    split_ifs with h1 h2 hb hb
    · exact memory_wfFrom_cons.2 ⟨hm.1, hm.2.1, hm.2.2.1, ih hm.2.2.2 (by omega)⟩
    · exact memory_wfFrom_mono (by omega) hm.2.2.2
    · subst h2; exact memory_wfFrom_cons.2 ⟨hm.1, hm.2.1, hb, hm.2.2.2⟩
    · exact memory_wfFrom_cons.2 hm
    · exact memory_wfFrom_cons.2
        ⟨hlo, hcap, hb, memory_wfFrom_cons.2 ⟨by omega, hm.2.1, hm.2.2.1, hm.2.2.2⟩⟩

/-- Every write keeps the canonical form. -/
theorem memory_write_wf {cap : Nat} {m : Memory} (hm : m.wf cap = true) {j : Nat} (b : Byte) (hj : j < cap) :
    (m.write j b).wf cap = true := memory_write_wfFrom hm b (Nat.zero_le _) hj

/-- A run of writes inside the buffer keeps the canonical form. -/
theorem memory_writeAll_wf {cap : Nat} (bs : List Byte) {m : Memory} (hm : m.wf cap = true) {j : Nat}
    (hj : j + bs.length ≤ cap) : (m.writeAll j bs).wf cap = true := by
  induction bs generalizing m j with
  | nil => exact hm
  | cons b bs ih =>
    rw [List.length_cons] at hj
    exact ih (memory_write_wf hm b (by omega)) (by omega)

/-- Reading any byte after a run of writes. -/
theorem memory_read_writeAll {cap : Nat} (bs : List Byte) {m : Memory} (hm : m.wf cap = true) {j : Nat}
    (hj : j + bs.length ≤ cap) (k : Nat) :
    (m.writeAll j bs).read k = if j ≤ k ∧ k < j + bs.length then bs.getD (k - j) 0 else m.read k := by
  induction bs generalizing m j with
  | nil =>
    rw [if_neg (by rw [List.length_nil]; omega)]; rfl
  | cons b bs ih =>
    rw [List.length_cons] at hj ⊢
    rw [Memory.writeAll, ih (memory_write_wf hm b (by omega)) (by omega), memory_read_write hm]
    by_cases hk : k = j
    · subst hk
      rw [if_neg (by omega), if_pos rfl, if_pos (by omega), Nat.sub_self, List.getD_cons_zero]
    · by_cases hr : j + 1 ≤ k ∧ k < j + 1 + bs.length
      · rw [if_pos hr, if_pos (by omega)]
        have : k - j = (k - (j + 1)) + 1 := by omega
        rw [this, List.getD_cons_succ]
      · rw [if_neg hr, if_neg hk, if_neg (by omega)]

/-- Canonical buffers with the same bytes are the same list. -/
theorem memory_ext {lo cap : Nat} {m n : Memory} (hm : Memory.wfFrom lo cap m = true)
    (hn : Memory.wfFrom lo cap n = true) (h : ∀ j, m.read j = n.read j) : m = n := by
  induction m generalizing lo n with
  | nil =>
    cases n with
    | nil => rfl
    | cons c rest =>
      obtain ⟨a, b⟩ := c
      rw [memory_wfFrom_cons] at hn
      have := h a
      simp only [Memory.read, if_true] at this
      exact absurd this.symm hn.2.2.1
  | cons c rest ih =>
    obtain ⟨a, b⟩ := c
    have hm' := memory_wfFrom_cons.1 hm
    cases n with
    | nil =>
      have := h a
      simp only [Memory.read, if_true] at this
      exact absurd this hm'.2.2.1
    | cons d rest' =>
      obtain ⟨a', b'⟩ := d
      have hn' := memory_wfFrom_cons.1 hn
      have ha : a = a' := by
        rcases Nat.lt_trichotomy a a' with hlt | heq | hgt
        · have := h a
          rw [Memory.read, if_pos rfl, Memory.read, if_neg (by omega),
            memory_read_below hn'.2.2.2 (by omega)] at this
          exact absurd this hm'.2.2.1
        · exact heq
        · have := h a'
          rw [Memory.read, if_neg (by omega), memory_read_below hm'.2.2.2 (by omega), Memory.read,
            if_pos rfl] at this
          exact absurd this.symm hn'.2.2.1
      subst ha
      have hb : b = b' := by simpa [Memory.read] using h a
      subst hb
      have hrest : rest = rest' := by
        refine ih hm'.2.2.2 hn'.2.2.2 fun j => ?_
        by_cases hj : a = j
        · subst hj
          rw [memory_read_below hm'.2.2.2 (by omega), memory_read_below hn'.2.2.2 (by omega)]
        · simpa [Memory.read, hj] using h j
      rw [hrest]

end Sys2Proof.Machine
end

