-- ==== Sys2Proof/Laws/State.lean ====
section
/-! SUPPORT. One lemma per field per update of the state, so that no later proof unfolds a record update, and what the
error action does to each field (spec/60_exceptions.md R188). The lemmas are proved by `(rfl)`,
so that `simp` rewrites with them and the kernel is not asked to see by computation that 19999 rounds leave a
field alone. -/

namespace Sys2Proof.Machine

/-! ## The success action (R89): `complete` -/

@[simp] theorem complete_busy (s : State) : (complete s).busy = false := (rfl)
@[simp] theorem complete_done (s : State) : (complete s).done = true := (rfl)
@[simp] theorem complete_errcode (s : State) : (complete s).errcode = s.errcode := (rfl)
@[simp] theorem complete_errinfo (s : State) : (complete s).errinfo = s.errinfo := (rfl)
@[simp] theorem complete_ieDone (s : State) : (complete s).ieDone = s.ieDone := (rfl)
@[simp] theorem complete_ieErr (s : State) : (complete s).ieErr = s.ieErr := (rfl)
@[simp] theorem complete_cw (s : State) : (complete s).cw = s.cw := (rfl)
@[simp] theorem complete_opa (s : State) : (complete s).opa = s.opa := (rfl)
@[simp] theorem complete_ope (s : State) : (complete s).ope = s.ope := (rfl)
@[simp] theorem complete_opm (s : State) : (complete s).opm = s.opm := (rfl)
@[simp] theorem complete_res (s : State) : (complete s).res = s.res := (rfl)
@[simp] theorem complete_acc (s : State) : (complete s).acc = s.acc := (rfl)
@[simp] theorem complete_v0 (s : State) : (complete s).v0 = s.v0 := (rfl)
@[simp] theorem complete_v1 (s : State) : (complete s).v1 = s.v1 := (rfl)
@[simp] theorem complete_v2 (s : State) : (complete s).v2 = s.v2 := (rfl)
@[simp] theorem complete_txt (s : State) : (complete s).txt = s.txt := (rfl)
@[simp] theorem complete_tlen (s : State) : (complete s).tlen = s.tlen := (rfl)
@[simp] theorem complete_rcnt (s : State) : (complete s).rcnt = s.rcnt := (rfl)
@[simp] theorem complete_key (s : State) : (complete s).key = s.key := (rfl)
@[simp] theorem complete_klen (s : State) : (complete s).klen = s.klen := (rfl)
@[simp] theorem complete_pos (s : State) : (complete s).pos = s.pos := (rfl)
@[simp] theorem complete_dpos (s : State) : (complete s).dpos = s.dpos := (rfl)
@[simp] theorem complete_dout (s : State) : (complete s).dout = s.dout := (rfl)
@[simp] theorem complete_turns (s : State) : (complete s).turns = s.turns := (rfl)
@[simp] theorem complete_rdata (s : State) : (complete s).rdata = s.rdata := (rfl)

/-! ## A store to ACC: `setAcc` -/

@[simp] theorem setAcc_busy (v : Nat) (s : State) : (setAcc v s).busy = s.busy := (rfl)
@[simp] theorem setAcc_done (v : Nat) (s : State) : (setAcc v s).done = s.done := (rfl)
@[simp] theorem setAcc_errcode (v : Nat) (s : State) : (setAcc v s).errcode = s.errcode := (rfl)
@[simp] theorem setAcc_errinfo (v : Nat) (s : State) : (setAcc v s).errinfo = s.errinfo := (rfl)
@[simp] theorem setAcc_ieDone (v : Nat) (s : State) : (setAcc v s).ieDone = s.ieDone := (rfl)
@[simp] theorem setAcc_ieErr (v : Nat) (s : State) : (setAcc v s).ieErr = s.ieErr := (rfl)
@[simp] theorem setAcc_cw (v : Nat) (s : State) : (setAcc v s).cw = s.cw := (rfl)
@[simp] theorem setAcc_opa (v : Nat) (s : State) : (setAcc v s).opa = s.opa := (rfl)
@[simp] theorem setAcc_ope (v : Nat) (s : State) : (setAcc v s).ope = s.ope := (rfl)
@[simp] theorem setAcc_opm (v : Nat) (s : State) : (setAcc v s).opm = s.opm := (rfl)
@[simp] theorem setAcc_res (v : Nat) (s : State) : (setAcc v s).res = s.res := (rfl)
@[simp] theorem setAcc_acc (v : Nat) (s : State) : (setAcc v s).acc = BitVec.ofNat 40 v := (rfl)
@[simp] theorem setAcc_v0 (v : Nat) (s : State) : (setAcc v s).v0 = s.v0 := (rfl)
@[simp] theorem setAcc_v1 (v : Nat) (s : State) : (setAcc v s).v1 = s.v1 := (rfl)
@[simp] theorem setAcc_v2 (v : Nat) (s : State) : (setAcc v s).v2 = s.v2 := (rfl)
@[simp] theorem setAcc_txt (v : Nat) (s : State) : (setAcc v s).txt = s.txt := (rfl)
@[simp] theorem setAcc_tlen (v : Nat) (s : State) : (setAcc v s).tlen = s.tlen := (rfl)
@[simp] theorem setAcc_rcnt (v : Nat) (s : State) : (setAcc v s).rcnt = s.rcnt := (rfl)
@[simp] theorem setAcc_key (v : Nat) (s : State) : (setAcc v s).key = s.key := (rfl)
@[simp] theorem setAcc_klen (v : Nat) (s : State) : (setAcc v s).klen = s.klen := (rfl)
@[simp] theorem setAcc_pos (v : Nat) (s : State) : (setAcc v s).pos = s.pos := (rfl)
@[simp] theorem setAcc_dpos (v : Nat) (s : State) : (setAcc v s).dpos = s.dpos := (rfl)
@[simp] theorem setAcc_dout (v : Nat) (s : State) : (setAcc v s).dout = s.dout := (rfl)
@[simp] theorem setAcc_turns (v : Nat) (s : State) : (setAcc v s).turns = s.turns := (rfl)
@[simp] theorem setAcc_rdata (v : Nat) (s : State) : (setAcc v s).rdata = s.rdata := (rfl)

/-! ## A store to the vector: `setVector` -/

@[simp] theorem setVector_busy (x y z : Nat) (s : State) : (setVector x y z s).busy = s.busy := (rfl)
@[simp] theorem setVector_done (x y z : Nat) (s : State) : (setVector x y z s).done = s.done := (rfl)
@[simp] theorem setVector_errcode (x y z : Nat) (s : State) : (setVector x y z s).errcode = s.errcode := (rfl)
@[simp] theorem setVector_errinfo (x y z : Nat) (s : State) : (setVector x y z s).errinfo = s.errinfo := (rfl)
@[simp] theorem setVector_ieDone (x y z : Nat) (s : State) : (setVector x y z s).ieDone = s.ieDone := (rfl)
@[simp] theorem setVector_ieErr (x y z : Nat) (s : State) : (setVector x y z s).ieErr = s.ieErr := (rfl)
@[simp] theorem setVector_cw (x y z : Nat) (s : State) : (setVector x y z s).cw = s.cw := (rfl)
@[simp] theorem setVector_opa (x y z : Nat) (s : State) : (setVector x y z s).opa = s.opa := (rfl)
@[simp] theorem setVector_ope (x y z : Nat) (s : State) : (setVector x y z s).ope = s.ope := (rfl)
@[simp] theorem setVector_opm (x y z : Nat) (s : State) : (setVector x y z s).opm = s.opm := (rfl)
@[simp] theorem setVector_res (x y z : Nat) (s : State) : (setVector x y z s).res = s.res := (rfl)
@[simp] theorem setVector_acc (x y z : Nat) (s : State) : (setVector x y z s).acc = s.acc := (rfl)
@[simp] theorem setVector_v0 (x y z : Nat) (s : State) : (setVector x y z s).v0 = BitVec.ofNat 45 x := (rfl)
@[simp] theorem setVector_v1 (x y z : Nat) (s : State) : (setVector x y z s).v1 = BitVec.ofNat 45 y := (rfl)
@[simp] theorem setVector_v2 (x y z : Nat) (s : State) : (setVector x y z s).v2 = BitVec.ofNat 45 z := (rfl)
@[simp] theorem setVector_txt (x y z : Nat) (s : State) : (setVector x y z s).txt = s.txt := (rfl)
@[simp] theorem setVector_tlen (x y z : Nat) (s : State) : (setVector x y z s).tlen = s.tlen := (rfl)
@[simp] theorem setVector_rcnt (x y z : Nat) (s : State) : (setVector x y z s).rcnt = s.rcnt := (rfl)
@[simp] theorem setVector_key (x y z : Nat) (s : State) : (setVector x y z s).key = s.key := (rfl)
@[simp] theorem setVector_klen (x y z : Nat) (s : State) : (setVector x y z s).klen = s.klen := (rfl)
@[simp] theorem setVector_pos (x y z : Nat) (s : State) : (setVector x y z s).pos = s.pos := (rfl)
@[simp] theorem setVector_dpos (x y z : Nat) (s : State) : (setVector x y z s).dpos = s.dpos := (rfl)
@[simp] theorem setVector_dout (x y z : Nat) (s : State) : (setVector x y z s).dout = s.dout := (rfl)
@[simp] theorem setVector_turns (x y z : Nat) (s : State) : (setVector x y z s).turns = s.turns := (rfl)
@[simp] theorem setVector_rdata (x y z : Nat) (s : State) : (setVector x y z s).rdata = s.rdata := (rfl)

/-! ## A store to the text (R132): `setText` -/

@[simp] theorem setText_busy (t : List Byte) (s : State) : (setText t s).busy = s.busy := (rfl)
@[simp] theorem setText_done (t : List Byte) (s : State) : (setText t s).done = s.done := (rfl)
@[simp] theorem setText_errcode (t : List Byte) (s : State) : (setText t s).errcode = s.errcode := (rfl)
@[simp] theorem setText_errinfo (t : List Byte) (s : State) : (setText t s).errinfo = s.errinfo := (rfl)
@[simp] theorem setText_ieDone (t : List Byte) (s : State) : (setText t s).ieDone = s.ieDone := (rfl)
@[simp] theorem setText_ieErr (t : List Byte) (s : State) : (setText t s).ieErr = s.ieErr := (rfl)
@[simp] theorem setText_cw (t : List Byte) (s : State) : (setText t s).cw = s.cw := (rfl)
@[simp] theorem setText_opa (t : List Byte) (s : State) : (setText t s).opa = s.opa := (rfl)
@[simp] theorem setText_ope (t : List Byte) (s : State) : (setText t s).ope = s.ope := (rfl)
@[simp] theorem setText_opm (t : List Byte) (s : State) : (setText t s).opm = s.opm := (rfl)
@[simp] theorem setText_res (t : List Byte) (s : State) : (setText t s).res = s.res := (rfl)
@[simp] theorem setText_acc (t : List Byte) (s : State) : (setText t s).acc = s.acc := (rfl)
@[simp] theorem setText_v0 (t : List Byte) (s : State) : (setText t s).v0 = s.v0 := (rfl)
@[simp] theorem setText_v1 (t : List Byte) (s : State) : (setText t s).v1 = s.v1 := (rfl)
@[simp] theorem setText_v2 (t : List Byte) (s : State) : (setText t s).v2 = s.v2 := (rfl)
@[simp] theorem setText_txt (t : List Byte) (s : State) : (setText t s).txt = s.txt.writeAll 0 t := (rfl)
@[simp] theorem setText_tlen (t : List Byte) (s : State) : (setText t s).tlen = BitVec.ofNat 7 t.length := (rfl)
@[simp] theorem setText_rcnt (t : List Byte) (s : State) : (setText t s).rcnt = s.rcnt := (rfl)
@[simp] theorem setText_key (t : List Byte) (s : State) : (setText t s).key = s.key := (rfl)
@[simp] theorem setText_klen (t : List Byte) (s : State) : (setText t s).klen = s.klen := (rfl)
@[simp] theorem setText_pos (t : List Byte) (s : State) : (setText t s).pos = s.pos := (rfl)
@[simp] theorem setText_dpos (t : List Byte) (s : State) : (setText t s).dpos = s.dpos := (rfl)
@[simp] theorem setText_dout (t : List Byte) (s : State) : (setText t s).dout = s.dout := (rfl)
@[simp] theorem setText_turns (t : List Byte) (s : State) : (setText t s).turns = s.turns := (rfl)
@[simp] theorem setText_rdata (t : List Byte) (s : State) : (setText t s).rdata = s.rdata := (rfl)

/-! ## The round counter (R34): `addRounds` -/

@[simp] theorem addRounds_busy (n : Nat) (s : State) : (addRounds n s).busy = s.busy := (rfl)
@[simp] theorem addRounds_done (n : Nat) (s : State) : (addRounds n s).done = s.done := (rfl)
@[simp] theorem addRounds_errcode (n : Nat) (s : State) : (addRounds n s).errcode = s.errcode := (rfl)
@[simp] theorem addRounds_errinfo (n : Nat) (s : State) : (addRounds n s).errinfo = s.errinfo := (rfl)
@[simp] theorem addRounds_ieDone (n : Nat) (s : State) : (addRounds n s).ieDone = s.ieDone := (rfl)
@[simp] theorem addRounds_ieErr (n : Nat) (s : State) : (addRounds n s).ieErr = s.ieErr := (rfl)
@[simp] theorem addRounds_cw (n : Nat) (s : State) : (addRounds n s).cw = s.cw := (rfl)
@[simp] theorem addRounds_opa (n : Nat) (s : State) : (addRounds n s).opa = s.opa := (rfl)
@[simp] theorem addRounds_ope (n : Nat) (s : State) : (addRounds n s).ope = s.ope := (rfl)
@[simp] theorem addRounds_opm (n : Nat) (s : State) : (addRounds n s).opm = s.opm := (rfl)
@[simp] theorem addRounds_res (n : Nat) (s : State) : (addRounds n s).res = s.res := (rfl)
@[simp] theorem addRounds_acc (n : Nat) (s : State) : (addRounds n s).acc = s.acc := (rfl)
@[simp] theorem addRounds_v0 (n : Nat) (s : State) : (addRounds n s).v0 = s.v0 := (rfl)
@[simp] theorem addRounds_v1 (n : Nat) (s : State) : (addRounds n s).v1 = s.v1 := (rfl)
@[simp] theorem addRounds_v2 (n : Nat) (s : State) : (addRounds n s).v2 = s.v2 := (rfl)
@[simp] theorem addRounds_txt (n : Nat) (s : State) : (addRounds n s).txt = s.txt := (rfl)
@[simp] theorem addRounds_tlen (n : Nat) (s : State) : (addRounds n s).tlen = s.tlen := (rfl)
@[simp] theorem addRounds_rcnt (n : Nat) (s : State) : (addRounds n s).rcnt = s.rcnt + BitVec.ofNat 32 n := (rfl)
@[simp] theorem addRounds_key (n : Nat) (s : State) : (addRounds n s).key = s.key := (rfl)
@[simp] theorem addRounds_klen (n : Nat) (s : State) : (addRounds n s).klen = s.klen := (rfl)
@[simp] theorem addRounds_pos (n : Nat) (s : State) : (addRounds n s).pos = s.pos := (rfl)
@[simp] theorem addRounds_dpos (n : Nat) (s : State) : (addRounds n s).dpos = s.dpos := (rfl)
@[simp] theorem addRounds_dout (n : Nat) (s : State) : (addRounds n s).dout = s.dout := (rfl)
@[simp] theorem addRounds_turns (n : Nat) (s : State) : (addRounds n s).turns = s.turns := (rfl)
@[simp] theorem addRounds_rdata (n : Nat) (s : State) : (addRounds n s).rdata = s.rdata := (rfl)

/-! ## The stores of a round (R141): `setRoundRegs` -/

@[simp] theorem setRoundRegs_busy (r : RoundRegs) (s : State) : (setRoundRegs r s).busy = s.busy := (rfl)
@[simp] theorem setRoundRegs_done (r : RoundRegs) (s : State) : (setRoundRegs r s).done = s.done := (rfl)
@[simp] theorem setRoundRegs_errcode (r : RoundRegs) (s : State) : (setRoundRegs r s).errcode = s.errcode := (rfl)
@[simp] theorem setRoundRegs_errinfo (r : RoundRegs) (s : State) : (setRoundRegs r s).errinfo = s.errinfo := (rfl)
@[simp] theorem setRoundRegs_ieDone (r : RoundRegs) (s : State) : (setRoundRegs r s).ieDone = s.ieDone := (rfl)
@[simp] theorem setRoundRegs_ieErr (r : RoundRegs) (s : State) : (setRoundRegs r s).ieErr = s.ieErr := (rfl)
@[simp] theorem setRoundRegs_cw (r : RoundRegs) (s : State) : (setRoundRegs r s).cw = s.cw := (rfl)
@[simp] theorem setRoundRegs_opa (r : RoundRegs) (s : State) : (setRoundRegs r s).opa = s.opa := (rfl)
@[simp] theorem setRoundRegs_ope (r : RoundRegs) (s : State) : (setRoundRegs r s).ope = s.ope := (rfl)
@[simp] theorem setRoundRegs_opm (r : RoundRegs) (s : State) : (setRoundRegs r s).opm = s.opm := (rfl)
@[simp] theorem setRoundRegs_res (r : RoundRegs) (s : State) : (setRoundRegs r s).res = s.res := (rfl)
@[simp] theorem setRoundRegs_acc (r : RoundRegs) (s : State) : (setRoundRegs r s).acc = r.acc := (rfl)
@[simp] theorem setRoundRegs_v0 (r : RoundRegs) (s : State) : (setRoundRegs r s).v0 = r.v0 := (rfl)
@[simp] theorem setRoundRegs_v1 (r : RoundRegs) (s : State) : (setRoundRegs r s).v1 = r.v1 := (rfl)
@[simp] theorem setRoundRegs_v2 (r : RoundRegs) (s : State) : (setRoundRegs r s).v2 = r.v2 := (rfl)
@[simp] theorem setRoundRegs_txt (r : RoundRegs) (s : State) : (setRoundRegs r s).txt = r.txt := (rfl)
@[simp] theorem setRoundRegs_tlen (r : RoundRegs) (s : State) : (setRoundRegs r s).tlen = r.tlen := (rfl)
@[simp] theorem setRoundRegs_rcnt (r : RoundRegs) (s : State) : (setRoundRegs r s).rcnt = s.rcnt := (rfl)
@[simp] theorem setRoundRegs_key (r : RoundRegs) (s : State) : (setRoundRegs r s).key = s.key := (rfl)
@[simp] theorem setRoundRegs_klen (r : RoundRegs) (s : State) : (setRoundRegs r s).klen = s.klen := (rfl)
@[simp] theorem setRoundRegs_pos (r : RoundRegs) (s : State) : (setRoundRegs r s).pos = s.pos := (rfl)
@[simp] theorem setRoundRegs_dpos (r : RoundRegs) (s : State) : (setRoundRegs r s).dpos = s.dpos := (rfl)
@[simp] theorem setRoundRegs_dout (r : RoundRegs) (s : State) : (setRoundRegs r s).dout = s.dout := (rfl)
@[simp] theorem setRoundRegs_turns (r : RoundRegs) (s : State) : (setRoundRegs r s).turns = s.turns := (rfl)
@[simp] theorem setRoundRegs_rdata (r : RoundRegs) (s : State) : (setRoundRegs r s).rdata = s.rdata := (rfl)

/-! ## The key load (R145): `loadKey` -/

@[simp] theorem loadKey_busy (s : State) : (loadKey s).busy = s.busy := (rfl)
@[simp] theorem loadKey_done (s : State) : (loadKey s).done = s.done := (rfl)
@[simp] theorem loadKey_errcode (s : State) : (loadKey s).errcode = s.errcode := (rfl)
@[simp] theorem loadKey_errinfo (s : State) : (loadKey s).errinfo = s.errinfo := (rfl)
@[simp] theorem loadKey_ieDone (s : State) : (loadKey s).ieDone = s.ieDone := (rfl)
@[simp] theorem loadKey_ieErr (s : State) : (loadKey s).ieErr = s.ieErr := (rfl)
@[simp] theorem loadKey_cw (s : State) : (loadKey s).cw = s.cw := (rfl)
@[simp] theorem loadKey_opa (s : State) : (loadKey s).opa = s.opa := (rfl)
@[simp] theorem loadKey_ope (s : State) : (loadKey s).ope = s.ope := (rfl)
@[simp] theorem loadKey_opm (s : State) : (loadKey s).opm = s.opm := (rfl)
@[simp] theorem loadKey_res (s : State) : (loadKey s).res = s.res := (rfl)
@[simp] theorem loadKey_acc (s : State) : (loadKey s).acc = s.acc := (rfl)
@[simp] theorem loadKey_v0 (s : State) : (loadKey s).v0 = s.v0 := (rfl)
@[simp] theorem loadKey_v1 (s : State) : (loadKey s).v1 = s.v1 := (rfl)
@[simp] theorem loadKey_v2 (s : State) : (loadKey s).v2 = s.v2 := (rfl)
@[simp] theorem loadKey_txt (s : State) : (loadKey s).txt = s.txt := (rfl)
@[simp] theorem loadKey_tlen (s : State) : (loadKey s).tlen = s.tlen := (rfl)
@[simp] theorem loadKey_rcnt (s : State) : (loadKey s).rcnt = s.rcnt := (rfl)
@[simp] theorem loadKey_key (s : State) : (loadKey s).key = s.key.writeAll 0 (s.text.take (min s.tlen.toNat Config.keyCap)) :=
  (rfl)
@[simp] theorem loadKey_klen (s : State) : (loadKey s).klen = BitVec.ofNat 8 (min s.tlen.toNat Config.keyCap) := (rfl)
@[simp] theorem loadKey_pos (s : State) : (loadKey s).pos = s.pos := (rfl)
@[simp] theorem loadKey_dpos (s : State) : (loadKey s).dpos = s.dpos := (rfl)
@[simp] theorem loadKey_dout (s : State) : (loadKey s).dout = s.dout := (rfl)
@[simp] theorem loadKey_turns (s : State) : (loadKey s).turns = s.turns := (rfl)
@[simp] theorem loadKey_rdata (s : State) : (loadKey s).rdata = s.rdata := (rfl)

/-! ## The error action: `recordError` and `raiseError` -/

@[simp] theorem recordError_busy (e : ErrorCode) (w : BitVec 32) (s : State) :
    (recordError e w s).busy = s.busy := by unfold recordError; split <;> rfl
@[simp] theorem raiseError_busy (e : ErrorCode) (w : BitVec 32) (s : State) :
    (raiseError e w s).busy = false := rfl
@[simp] theorem recordError_done (e : ErrorCode) (w : BitVec 32) (s : State) :
    (recordError e w s).done = s.done := by unfold recordError; split <;> rfl
@[simp] theorem raiseError_done (e : ErrorCode) (w : BitVec 32) (s : State) :
    (raiseError e w s).done = s.done := recordError_done e w s
@[simp] theorem recordError_ieDone (e : ErrorCode) (w : BitVec 32) (s : State) :
    (recordError e w s).ieDone = s.ieDone := by unfold recordError; split <;> rfl
@[simp] theorem raiseError_ieDone (e : ErrorCode) (w : BitVec 32) (s : State) :
    (raiseError e w s).ieDone = s.ieDone := recordError_ieDone e w s
@[simp] theorem recordError_ieErr (e : ErrorCode) (w : BitVec 32) (s : State) :
    (recordError e w s).ieErr = s.ieErr := by unfold recordError; split <;> rfl
@[simp] theorem raiseError_ieErr (e : ErrorCode) (w : BitVec 32) (s : State) :
    (raiseError e w s).ieErr = s.ieErr := recordError_ieErr e w s
@[simp] theorem recordError_cw (e : ErrorCode) (w : BitVec 32) (s : State) :
    (recordError e w s).cw = s.cw := by unfold recordError; split <;> rfl
@[simp] theorem raiseError_cw (e : ErrorCode) (w : BitVec 32) (s : State) :
    (raiseError e w s).cw = s.cw := recordError_cw e w s
@[simp] theorem recordError_opa (e : ErrorCode) (w : BitVec 32) (s : State) :
    (recordError e w s).opa = s.opa := by unfold recordError; split <;> rfl
@[simp] theorem raiseError_opa (e : ErrorCode) (w : BitVec 32) (s : State) :
    (raiseError e w s).opa = s.opa := recordError_opa e w s
@[simp] theorem recordError_ope (e : ErrorCode) (w : BitVec 32) (s : State) :
    (recordError e w s).ope = s.ope := by unfold recordError; split <;> rfl
@[simp] theorem raiseError_ope (e : ErrorCode) (w : BitVec 32) (s : State) :
    (raiseError e w s).ope = s.ope := recordError_ope e w s
@[simp] theorem recordError_opm (e : ErrorCode) (w : BitVec 32) (s : State) :
    (recordError e w s).opm = s.opm := by unfold recordError; split <;> rfl
@[simp] theorem raiseError_opm (e : ErrorCode) (w : BitVec 32) (s : State) :
    (raiseError e w s).opm = s.opm := recordError_opm e w s
@[simp] theorem recordError_res (e : ErrorCode) (w : BitVec 32) (s : State) :
    (recordError e w s).res = s.res := by unfold recordError; split <;> rfl
@[simp] theorem raiseError_res (e : ErrorCode) (w : BitVec 32) (s : State) :
    (raiseError e w s).res = s.res := recordError_res e w s
@[simp] theorem recordError_acc (e : ErrorCode) (w : BitVec 32) (s : State) :
    (recordError e w s).acc = s.acc := by unfold recordError; split <;> rfl
@[simp] theorem raiseError_acc (e : ErrorCode) (w : BitVec 32) (s : State) :
    (raiseError e w s).acc = s.acc := recordError_acc e w s
@[simp] theorem recordError_v0 (e : ErrorCode) (w : BitVec 32) (s : State) :
    (recordError e w s).v0 = s.v0 := by unfold recordError; split <;> rfl
@[simp] theorem raiseError_v0 (e : ErrorCode) (w : BitVec 32) (s : State) :
    (raiseError e w s).v0 = s.v0 := recordError_v0 e w s
@[simp] theorem recordError_v1 (e : ErrorCode) (w : BitVec 32) (s : State) :
    (recordError e w s).v1 = s.v1 := by unfold recordError; split <;> rfl
@[simp] theorem raiseError_v1 (e : ErrorCode) (w : BitVec 32) (s : State) :
    (raiseError e w s).v1 = s.v1 := recordError_v1 e w s
@[simp] theorem recordError_v2 (e : ErrorCode) (w : BitVec 32) (s : State) :
    (recordError e w s).v2 = s.v2 := by unfold recordError; split <;> rfl
@[simp] theorem raiseError_v2 (e : ErrorCode) (w : BitVec 32) (s : State) :
    (raiseError e w s).v2 = s.v2 := recordError_v2 e w s
@[simp] theorem recordError_txt (e : ErrorCode) (w : BitVec 32) (s : State) :
    (recordError e w s).txt = s.txt := by unfold recordError; split <;> rfl
@[simp] theorem raiseError_txt (e : ErrorCode) (w : BitVec 32) (s : State) :
    (raiseError e w s).txt = s.txt := recordError_txt e w s
@[simp] theorem recordError_tlen (e : ErrorCode) (w : BitVec 32) (s : State) :
    (recordError e w s).tlen = s.tlen := by unfold recordError; split <;> rfl
@[simp] theorem raiseError_tlen (e : ErrorCode) (w : BitVec 32) (s : State) :
    (raiseError e w s).tlen = s.tlen := recordError_tlen e w s
@[simp] theorem recordError_rcnt (e : ErrorCode) (w : BitVec 32) (s : State) :
    (recordError e w s).rcnt = s.rcnt := by unfold recordError; split <;> rfl
@[simp] theorem raiseError_rcnt (e : ErrorCode) (w : BitVec 32) (s : State) :
    (raiseError e w s).rcnt = s.rcnt := recordError_rcnt e w s
@[simp] theorem recordError_key (e : ErrorCode) (w : BitVec 32) (s : State) :
    (recordError e w s).key = s.key := by unfold recordError; split <;> rfl
@[simp] theorem raiseError_key (e : ErrorCode) (w : BitVec 32) (s : State) :
    (raiseError e w s).key = s.key := recordError_key e w s
@[simp] theorem recordError_klen (e : ErrorCode) (w : BitVec 32) (s : State) :
    (recordError e w s).klen = s.klen := by unfold recordError; split <;> rfl
@[simp] theorem raiseError_klen (e : ErrorCode) (w : BitVec 32) (s : State) :
    (raiseError e w s).klen = s.klen := recordError_klen e w s
@[simp] theorem recordError_pos (e : ErrorCode) (w : BitVec 32) (s : State) :
    (recordError e w s).pos = s.pos := by unfold recordError; split <;> rfl
@[simp] theorem raiseError_pos (e : ErrorCode) (w : BitVec 32) (s : State) :
    (raiseError e w s).pos = s.pos := recordError_pos e w s
@[simp] theorem recordError_dpos (e : ErrorCode) (w : BitVec 32) (s : State) :
    (recordError e w s).dpos = s.dpos := by unfold recordError; split <;> rfl
@[simp] theorem raiseError_dpos (e : ErrorCode) (w : BitVec 32) (s : State) :
    (raiseError e w s).dpos = s.dpos := recordError_dpos e w s
@[simp] theorem recordError_dout (e : ErrorCode) (w : BitVec 32) (s : State) :
    (recordError e w s).dout = s.dout := by unfold recordError; split <;> rfl
@[simp] theorem raiseError_dout (e : ErrorCode) (w : BitVec 32) (s : State) :
    (raiseError e w s).dout = s.dout := recordError_dout e w s
@[simp] theorem recordError_turns (e : ErrorCode) (w : BitVec 32) (s : State) :
    (recordError e w s).turns = s.turns := by unfold recordError; split <;> rfl
@[simp] theorem raiseError_turns (e : ErrorCode) (w : BitVec 32) (s : State) :
    (raiseError e w s).turns = s.turns := recordError_turns e w s
@[simp] theorem recordError_rdata (e : ErrorCode) (w : BitVec 32) (s : State) :
    (recordError e w s).rdata = s.rdata := by unfold recordError; split <;> rfl
@[simp] theorem raiseError_rdata (e : ErrorCode) (w : BitVec 32) (s : State) :
    (raiseError e w s).rdata = s.rdata := recordError_rdata e w s

/-- The first error wins (R188). -/
theorem recordError_errcode (e : ErrorCode) (w : BitVec 32) (s : State) :
    (recordError e w s).errcode = if s.errcode = 0 then e.code else s.errcode := by
  unfold recordError; split <;> rfl

/-- The datum goes with the code that is kept (R188). -/
theorem recordError_errinfo (e : ErrorCode) (w : BitVec 32) (s : State) :
    (recordError e w s).errinfo = if s.errcode = 0 then w else s.errinfo := by
  unfold recordError; split <;> rfl

theorem raiseError_errcode (e : ErrorCode) (w : BitVec 32) (s : State) :
    (raiseError e w s).errcode = if s.errcode = 0 then e.code else s.errcode := recordError_errcode e w s

theorem raiseError_errinfo (e : ErrorCode) (w : BitVec 32) (s : State) :
    (raiseError e w s).errinfo = if s.errcode = 0 then w else s.errinfo := recordError_errinfo e w s

/-- Everything the error action does, as one record (R188, R190). -/
theorem raiseError_eq (e : ErrorCode) (w : BitVec 32) (s : State) :
    raiseError e w s =
      { s with busy := false, errcode := if s.errcode = 0 then e.code else s.errcode,
               errinfo := if s.errcode = 0 then w else s.errinfo } := by
  unfold raiseError recordError; split <;> rfl

/-- Everything a write while BUSY does (R63). -/
theorem raiseBusyWrite_eq (idx : Index) (s : State) :
    raiseBusyWrite idx s =
      { s with errcode := if s.errcode = 0 then 5 else s.errcode,
               errinfo := if s.errcode = 0 then idx.setWidth 32 else s.errinfo } := by
  unfold raiseBusyWrite recordError; split <;> rfl

/-- Every code an error records is from 1 to 6 (R186). -/
theorem errorCode_range (e : ErrorCode) : 1 ≤ e.code.toNat ∧ e.code.toNat ≤ 6 := by cases e <;> decide

/-- Everything a write to STATUS does (R67). -/
theorem writeStatus_eq (v : Data) (s : State) :
    writeStatus v s =
      { s with done := if v.getLsbD 1 then false else s.done,
               errcode := if v.getLsbD 2 then 0 else s.errcode,
               errinfo := if v.getLsbD 2 then 0 else s.errinfo } := by
  unfold writeStatus; cases v.getLsbD 1 <;> cases v.getLsbD 2 <;> rfl

/-- After reset every component is at its reset value, whatever the state was (R215). -/
@[simp] theorem hardReset_engine (s : State) : (hardReset s).toEngine = Engine.reset := rfl
@[simp] theorem hardReset_turns (s : State) : (hardReset s).turns = s.turns := rfl
@[simp] theorem hardReset_rdata (s : State) : (hardReset s).rdata = s.rdata := rfl

end Sys2Proof.Machine
end

