-- ==== Sys2Proof/Laws/Round.lean ====
section
/-! SUPPORT. What the rounds of the hash leave (spec/44_round_derive.md R141 to R145) in ACC, the vector and TXT, and the
canonical form of TXT and KEY. That rounds change nothing else is in the type: they map the round registers. -/

namespace Sys2Proof.Machine

/-! ## Text in the buffer -/

@[simp] theorem textOf_length (m : Memory) (n : BitVec 7) : (textOf m n).length = n.toNat := by
  rw [textOf, List.length_map, List.length_range]

theorem text_length (s : State) : s.text.length = s.tlen.toNat := textOf_length _ _

/-- A length of at most 64 fits TLEN. -/
theorem tlen_ofNat {n : Nat} (h : n ≤ 64) : (BitVec.ofNat 7 n).toNat = n := by
  rw [BitVec.toNat_ofNat, Nat.mod_eq_of_lt (by omega)]

/-- A stored text of at most 64 bytes reads back, and the buffer's tail is what it was (R132, R223). -/
theorem stored_read {t : List Byte} (h : t.length ≤ 64) {m : Memory} (hm : m.wf Config.txtCap = true) (j : Nat) :
    (m.writeAll 0 t).read j = if j < t.length then t.getD j 0 else m.read j := by
  rw [memory_read_writeAll t hm (by simpa [Config.txtCap] using h)]
  simp

/-- Storing a text of at most 64 bytes keeps TXT canonical. -/
theorem stored_wf {t : List Byte} (h : t.length ≤ 64) {m : Memory} (hm : m.wf Config.txtCap = true) :
    (m.writeAll 0 t).wf Config.txtCap = true := memory_writeAll_wf t hm (by simpa [Config.txtCap] using h)

/-- The text of the buffer is what was stored last (R132). -/
theorem stored_text {t : List Byte} (h : t.length ≤ 64) {m : Memory} (hm : m.wf Config.txtCap = true) :
    textOf (m.writeAll 0 t) (BitVec.ofNat 7 t.length) = t := by
  apply List.ext_getElem
  · rw [textOf_length, tlen_ofNat h]
  · intro j h1 h2
    simp only [textOf, List.getElem_map, List.getElem_range]
    rw [stored_read h hm, if_pos h2, List.getD_eq_getElem _ _ h2]

/-! ## What a round leaves -/

/-- What a finished round leaves in the round registers, whatever value step a had (R140, R133). -/
structure AfterRound (a : Nat) (x : RoundRegs) : Prop where
  acc : x.acc.toNat = mixStep (expStep a)
  v0 : x.v0.toNat = 2 * mixStep (expStep a)
  v1 : x.v1.toNat = 7 * mixStep (expStep a)
  v2 : x.v2.toNat = 17 * mixStep (expStep a)
  tlen : 5 ≤ x.tlen.toNat ∧ x.tlen.toNat ≤ 30

/-- What the stores of a round leave, in any state. -/
theorem storeRound_after (a : Nat) (x : RoundRegs) : AfterRound a (storeRound (roundTail a) x) := by
  have hc := mixStep_expStep_le a
  have hl := roundTail_text_length a
  refine ⟨?_, ?_, ?_, ?_, ?_⟩
  · exact Nat.mod_eq_of_lt (show mixStep (expStep a) < 2 ^ 40 by omega)
  · exact Nat.mod_eq_of_lt (show 2 * mixStep (expStep a) < 2 ^ 45 by omega)
  · exact Nat.mod_eq_of_lt (show 7 * mixStep (expStep a) < 2 ^ 45 by omega)
  · exact Nat.mod_eq_of_lt (show 17 * mixStep (expStep a) < 2 ^ 45 by omega)
  · rw [storeRound, tlen_ofNat (by omega)]; exact hl

/-- The text a round leaves (R131, R140). -/
theorem storeRound_text (a : Nat) {x : RoundRegs} (hm : x.txt.wf Config.txtCap = true) :
    textOf (storeRound (roundTail a) x).txt (storeRound (roundTail a) x).tlen =
      str3 (2 * mixStep (expStep a)) (7 * mixStep (expStep a)) (17 * mixStep (expStep a)) :=
  stored_text (by have := roundTail_text_length a; omega) hm

theorem storeRound_wf (a : Nat) {x : RoundRegs} (hm : x.txt.wf Config.txtCap = true) :
    (storeRound (roundTail a) x).txt.wf Config.txtCap = true :=
  stored_wf (by have := roundTail_text_length a; omega) hm

theorem finishRound_wf {x : RoundRegs} (hm : x.txt.wf Config.txtCap = true) :
    (finishRound x).txt.wf Config.txtCap = true := storeRound_wf _ hm

theorem oneRound_wf {x : RoundRegs} (hm : x.txt.wf Config.txtCap = true) :
    (oneRound x).txt.wf Config.txtCap = true := storeRound_wf _ hm

/-- From the end of the text a round leaves, TXT is what it was (R132, R223). -/
theorem storeRound_tail (a : Nat) {x : RoundRegs} (hm : x.txt.wf Config.txtCap = true) {j : Nat}
    (hj : (storeRound (roundTail a) x).tlen.toNat ≤ j) : (storeRound (roundTail a) x).txt.read j = x.txt.read j := by
  have hl := roundTail_text_length a
  have ht : (storeRound (roundTail a) x).tlen.toNat = (roundTail a).text.length := tlen_ofNat (by omega)
  exact (stored_read (by omega) hm j).trans (if_neg (by omega))

/-- HFIN's body (R141). -/
theorem finishRound_after (x : RoundRegs) : AfterRound x.acc.toNat (finishRound x) := storeRound_after _ _

/-- The loop body of ROUNDS (R143). -/
theorem oneRound_after (x : RoundRegs) : AfterRound (hashA (textOf x.txt x.tlen)) (oneRound x) := storeRound_after _ _

/-! ## Runs of rounds -/

@[simp] theorem repeatRounds_zero (x : RoundRegs) : repeatRounds 0 x = x := rfl

theorem repeatRounds_succ (n : Nat) (x : RoundRegs) : repeatRounds (n + 1) x = repeatRounds n (oneRound x) := rfl

/-- Rounds compose. -/
theorem repeatRounds_add (m n : Nat) (x : RoundRegs) : repeatRounds (m + n) x = repeatRounds n (repeatRounds m x) := by
  induction m generalizing x with
  | zero => rw [Nat.zero_add]; rfl
  | succ m ih => rw [Nat.succ_add_eq_add_succ, Nat.add_succ, repeatRounds_succ, ih]; rfl

/-- The last of a run of rounds. -/
theorem repeatRounds_last (n : Nat) (x : RoundRegs) : repeatRounds (n + 1) x = oneRound (repeatRounds n x) :=
  repeatRounds_add n 1 x

/-- Every run of at least one round ends in a finished round. -/
theorem repeatRounds_after (n : Nat) (x : RoundRegs) : ∃ a, AfterRound a (repeatRounds (n + 1) x) := by
  rw [repeatRounds_last]; exact ⟨_, oneRound_after _⟩

/-- A run of rounds keeps TXT canonical. -/
theorem repeatRounds_wf (n : Nat) {x : RoundRegs} (hm : x.txt.wf Config.txtCap = true) :
    (repeatRounds n x).txt.wf Config.txtCap = true := by
  induction n generalizing x with
  | zero => exact hm
  | succ n ih => exact ih (oneRound_wf hm)

/-- A run of rounds leaves TLEN as it was, or at most 30. -/
theorem repeatRounds_tlen (n : Nat) (x : RoundRegs) :
    (repeatRounds n x).tlen = x.tlen ∨ (repeatRounds n x).tlen.toNat ≤ 30 := by
  cases n with
  | zero => exact Or.inl rfl
  | succ n =>
    obtain ⟨a, h⟩ := repeatRounds_after n x
    exact Or.inr h.tlen.2

/-! ## The key load -/

/-- TLEN has seven bits, so the truncation to 128 never binds (R145). -/
theorem min_tlen (s : State) : min s.tlen.toNat Config.keyCap = s.tlen.toNat :=
  Nat.min_eq_left (Nat.le_of_lt s.tlen.isLt)

theorem take_text (s : State) : s.text.take (min s.tlen.toNat Config.keyCap) = s.text := by
  rw [min_tlen, ← text_length, List.take_length]

/-- KLEN after the key load (R145). -/
theorem loadKey_klen_toNat (s : State) : (loadKey s).klen.toNat = s.tlen.toNat := by
  rw [loadKey_klen, min_tlen, BitVec.toNat_ofNat, Nat.mod_eq_of_lt (Nat.lt_trans s.tlen.isLt (by decide))]

/-- KEY after the key load: the text, then what was there (R145, R223). -/
theorem loadKey_read {s : State} (hk : s.key.wf Config.keyCap = true) (j : Nat) :
    (loadKey s).key.read j = if j < s.tlen.toNat then s.txt.read j else s.key.read j := by
  have hlen : 0 + s.text.length ≤ Config.keyCap := by
    rw [text_length, Nat.zero_add]; exact Nat.le_of_lt s.tlen.isLt
  rw [loadKey_key, take_text, memory_read_writeAll s.text hk hlen]
  simp only [Nat.zero_le, true_and, Nat.zero_add, Nat.sub_zero, text_length]
  split_ifs with h
  · rw [List.getD_eq_getElem _ _ (by rw [text_length]; exact h)]
    simp [State.text, textOf]
  · rfl

/-- The key load keeps KEY canonical. -/
theorem loadKey_wf {s : State} (hk : s.key.wf Config.keyCap = true) : (loadKey s).key.wf Config.keyCap = true := by
  rw [loadKey_key, take_text]
  exact memory_writeAll_wf _ hk (by rw [text_length, Nat.zero_add]; exact Nat.le_of_lt s.tlen.isLt)

end Sys2Proof.Machine
end

