-- ==== Sys2Proof/Laws/Exec.lean ====
section
/-! SUPPORT. What each shared operation that ends a command can answer, and from that what `exec` can answer: it
completes with the command's effect, or raises one error and changes nothing else (spec/30_encoding.md R88). -/

namespace Sys2Proof.Machine

/-! ## The shared endings -/

theorem withText_ok {s : State} (h : s.tlen.toNat ≤ 64) (r : State) : withText s r = .next (complete r) := by
  rw [withText, if_pos (by exact h)]

theorem withText_next {s r t : State} (h : withText s r = .next t) : t = complete r := by
  rw [withText] at h
  split_ifs at h
  cases h; rfl

/-- Where TLEN names bytes past the end of TXT, the command stops (log 6). -/
theorem withText_stops {s : State} (h : 64 < s.tlen.toNat) (r : State) : withText s r = .fault .txtIndex :=
  if_neg (Nat.not_le.2 h)

theorem withKey_noKey {s : State} (h : s.klen = 0) (p : BitVec 64) (n : Nat) (r : State) :
    withKey s p n r = .next (raiseError .noKey s.cw s) := by
  rw [withKey, if_pos h]

/-- With a key of legal length every key byte exists (R240: `i mod KLEN < KLEN <= 128`). -/
theorem keyInRange_of_klen {s : State} (h0 : s.klen ≠ 0) (h : s.klen.toNat ≤ 128) (p : BitVec 64) (n : Nat) :
    keyInRange s p n = true := by
  have hpos : 0 < s.klen.toNat := by
    rcases Nat.eq_zero_or_pos s.klen.toNat with h' | h'
    · exact absurd (BitVec.eq_of_toNat_eq (by simpa using h')) h0
    · exact h'
  rw [keyInRange, List.all_eq_true]
  intro k _
  exact decide_eq_true (Nat.lt_of_lt_of_le (Nat.mod_lt _ hpos) h)

theorem withKey_ok {s : State} (h0 : s.klen ≠ 0) (h : s.klen.toNat ≤ 128) (p : BitVec 64) (n : Nat) (r : State) :
    withKey s p n r = .next (complete r) := by
  rw [withKey, if_neg h0, if_pos (keyInRange_of_klen h0 h p n)]

/-- Where a position's key byte does not exist, the command stops (log 7). -/
theorem withKey_stops {s : State} {p : BitVec 64} {n k : Nat} (h0 : s.klen ≠ 0) (hk : k < n)
    (h : 128 ≤ (p.toNat + k) % 2 ^ 64 % s.klen.toNat) (r : State) : withKey s p n r = .fault .keyIndex := by
  rw [withKey, if_neg h0, if_neg]
  intro hin
  have := (keyInRange_iff s p n).1 hin k hk
  omega

theorem withKey_next {s r t : State} {p : BitVec 64} {n : Nat} (h : withKey s p n r = .next t) :
    (s.klen = 0 ∧ t = raiseError .noKey s.cw s) ∨ (s.klen ≠ 0 ∧ t = complete r) := by
  rw [withKey] at h
  split_ifs at h with h0 h1
  · cases h; exact Or.inl ⟨h0, rfl⟩
  · cases h; exact Or.inr ⟨h0, rfl⟩

theorem completeUnless_bad {bad : Prop} [Decidable bad] (h : bad) (e : ErrorCode) (s r : State) :
    completeUnless bad e s r = raiseError e s.cw s := if_pos h

theorem completeUnless_good {bad : Prop} [Decidable bad] (h : ¬ bad) (e : ErrorCode) (s r : State) :
    completeUnless bad e s r = complete r := if_neg h

/-! ## Every command -/

/-- The writes a command performs before `complete`, when it does not raise an error. -/
def effect : Instr → State → State
  | .nop, s => s
  | .modpow, s => { s with res := BitVec.ofNat 64 (modpow s.opa.toNat s.ope.toNat s.opm.toNat) }
  | .hinit, s => { s with acc := 0, rcnt := 0 }
  | .habs code, s => setAcc (absorb s.acc.toNat code.toNat) s
  | .hfeed, s => setAcc (hashA s.text) s
  | .hexp, s => setAcc (expStep s.acc.toNat) s
  | .hmix, s => setAcc (mixStep s.acc.toNat) s
  | .hmat, s => setVector (matRow 0 s.acc.toNat) (matRow 1 s.acc.toNat) (matRow 2 s.acc.toNat) s
  | .hstr, s => setText (str3 s.v0.toNat s.v1.toNat s.v2.toNat) s
  | .hfin, s => addRounds 1 (setRoundRegs (finishRound s.roundRegs) s)
  | .rounds n, s => addRounds n.toNat (setRoundRegs (repeatRounds n.toNat s.roundRegs) s)
  | .derive, s =>
    loadKey (addRounds Config.iter (setRoundRegs (repeatRounds (Config.iter - 1) (finishRound s.roundRegs)) s))
  | .kload, s => loadKey s
  | .sstart, s => { s with pos := 0 }
  | .sbit b, s => { s with dout := bitByte (b.getLsbD 0 ^^ ksbit s s.pos), pos := s.pos + 1 }
  | .sxor x, s => { s with dout := xorByte (ksbit s) s.pos x, pos := s.pos + 8 }
  | .schk, s => s
  | .dstart, s => { s with dpos := 0 }
  | .dbit b, s => { s with dout := bitByte (b.getLsbD 0 ^^ dbitmask s s.dpos), dpos := s.dpos + 1 }
  | .dxor x, s => { s with dout := xorByte (dbitmask s) s.dpos x, dpos := s.dpos + 8 }

/-- What DERIVE does, with its count of rounds as a variable: a proof that names the variable does not run 19999 rounds
(R144). -/
theorem effect_derive (s : State) :
    ∃ n, n + 2 = Config.iter ∧ effect .derive s =
      loadKey (addRounds Config.iter (setRoundRegs (repeatRounds (n + 1) (finishRound s.roundRegs)) s)) :=
  ⟨19998, rfl, rfl⟩

/-- DERIVE completes in every state (R144). -/
theorem exec_derive (s : State) : exec .derive s = .next (complete (effect .derive s)) := rfl

/-- No rounds and a count of 0 are no change. -/
theorem addRounds_zero (s : State) : addRounds 0 s = s := by
  rw [addRounds]
  have : s.rcnt + BitVec.ofNat 32 0 = s.rcnt := by simp
  rw [this]

/-- The error a command may raise, and the state it raises it in (R186). -/
def ownError : Instr → ErrorCode → State → Prop
  | .modpow, .modZero, s => s.opm = 0
  | .sbit _, .noKey, s => s.klen = 0
  | .sxor _, .noKey, s => s.klen = 0
  | .dbit _, .noKey, s => s.klen = 0
  | .dxor _, .noKey, s => s.klen = 0
  | .schk, .ctLen, s => s.pos.toNat % 8 ≠ 0
  | _, _, _ => False

/-- A command that answers a next state raised its own error and changed nothing else, or completed with its effect (R88,
R188). -/
theorem exec_next {i : Instr} {s t : State} (h : exec i s = .next t) :
    (∃ e, ownError i e s ∧ t = raiseError e s.cw s) ∨ t = complete (effect i s) := by
  cases i
  case modpow =>
    cases h
    by_cases h0 : s.opm = 0
    · exact Or.inl ⟨.modZero, h0, completeUnless_bad h0 _ _ _⟩
    · exact Or.inr (completeUnless_good h0 _ _ _)
  case schk =>
    cases h
    by_cases h0 : s.pos.toNat % 8 ≠ 0
    · exact Or.inl ⟨.ctLen, h0, completeUnless_bad h0 _ _ _⟩
    · exact Or.inr (completeUnless_good h0 _ _ _)
  case sbit | sxor | dbit | dxor =>
    rcases withKey_next h with ⟨h0, h⟩ | ⟨_, h⟩
    · exact Or.inl ⟨.noKey, h0, h⟩
    · exact Or.inr h
  case hfeed | kload => exact Or.inr (withText_next h)
  case rounds n =>
    change execRounds n s = _ at h
    rw [execRounds] at h
    split_ifs at h with h0
    · cases h; subst h0
      exact Or.inr (congrArg complete (addRounds_zero s).symm)
    · exact Or.inr (withText_next h)
  all_goals (cases h; exact Or.inr rfl)

/-- The states in which a command reads no byte past a buffer's end: both lengths are legal (R33, R35). -/
theorem exec_answers (i : Instr) {s : State} (ht : s.tlen.toNat ≤ 64) (hk : s.klen.toNat ≤ 128) :
    ∃ t, exec i s = .next t := by
  have key : ∀ (p : BitVec 64) (n : Nat) (r : State), ∃ t, withKey s p n r = .next t := fun p n r => by
    by_cases h0 : s.klen = 0
    · exact ⟨_, withKey_noKey h0 p n r⟩
    · exact ⟨_, withKey_ok h0 hk p n r⟩
  cases i
  case sbit | sxor | dbit | dxor => exact key _ _ _
  case hfeed | kload => exact ⟨_, withText_ok ht _⟩
  case rounds n =>
    by_cases h0 : n = 0
    · exact ⟨_, if_pos h0⟩
    · exact ⟨_, (if_neg h0).trans (withText_ok ht _)⟩
  all_goals exact ⟨_, rfl⟩

end Sys2Proof.Machine
end

