-- ==== Sys2Proof/Laws/Port.lean ====
section
/-! SUPPORT. Which register stands at an index (spec/10_state.md R22), and a port write in its two cases (spec/20_memory.md
R62, R63). -/

namespace Sys2Proof.Machine

/-- 0x40 to 0x7F are the bytes of TXT (R22). -/
theorem regAt_txt {j : Nat} (h : j < 64) : regAt (BitVec.ofNat 8 (0x40 + j)) = .txt ⟨j, h⟩ := by
  have e : (BitVec.ofNat 8 (0x40 + j)).toNat = 0x40 + j := by rw [BitVec.toNat_ofNat]; omega
  simp only [regAt, e]
  rw [dif_neg (by omega), dif_pos (by omega)]
  simp only [Nat.add_sub_cancel_left]

/-- 0x80 to 0xFF are the bytes of KEY (R22). -/
theorem regAt_key {j : Nat} (h : j < 128) : regAt (BitVec.ofNat 8 (0x80 + j)) = .key ⟨j, h⟩ := by
  have e : (BitVec.ofNat 8 (0x80 + j)).toNat = 0x80 + j := by rw [BitVec.toNat_ofNat]; omega
  simp only [regAt, e]
  rw [dif_pos (by omega)]
  simp only [Nat.add_sub_cancel_left]

/-- The indices of R22 that name no register. -/
theorem regAt_reserved {idx : Index}
    (h : idx.toNat ∈ [0x05, 0x06, 0x07, 0x0C, 0x0D, 0x0E, 0x0F, 0x16, 0x17] ∨ (0x1C ≤ idx.toNat ∧ idx.toNat ≤ 0x3F)) :
    regAt idx = .reserved := by
  simp only [List.mem_cons, List.not_mem_nil, or_false] at h
  rw [regAt, dif_neg (by omega), dif_neg (by omega)]
  split <;> first | rfl | omega

/-- A register that is not reserved stands at its own index. -/
theorem regAt_index {idx : Index} (h : regAt idx ≠ .reserved) : (regAt idx).index = idx := by
  have := idx.isLt
  revert h
  rw [regAt]
  split_ifs with h1 h2
  · intro _; apply BitVec.eq_of_toNat_eq; simp only [PortReg.index, BitVec.toNat_ofNat]; omega
  · intro _; apply BitVec.eq_of_toNat_eq; simp only [PortReg.index, BitVec.toNat_ofNat]; omega
  · split <;> intro h <;>
      first
      | exact absurd rfl h
      | (apply BitVec.eq_of_toNat_eq; rw [‹idx.toNat = _›]; rfl)

/-- Two indices with the same register that is not reserved are one. -/
theorem regAt_injective {a b : Index} (h : regAt a ≠ .reserved) (hab : regAt a = regAt b) : a = b :=
  (regAt_index h).symm.trans ((congrArg PortReg.index hab).trans (regAt_index (hab ▸ h)))

/-- A write with BUSY = 0 (R62). -/
theorem portWrite_idle {s : State} (h : s.busy = false) (idx : Index) (v : Data) :
    portWrite idx v s = writeReg v s (regAt idx) := by
  rw [portWrite, if_neg (by simp [h])]

/-- A write with BUSY = 1 (R63). -/
theorem portWrite_busy {s : State} (h : s.busy = true) (idx : Index) (v : Data) :
    portWrite idx v s = writeRegBusy idx v s (regAt idx) := by
  rw [portWrite, if_pos h]

end Sys2Proof.Machine
end

