-- ==== Sys2Proof/Tests/Slice0.lean ====
section
/-! SUPPORT. Tests of the model on the spec's own numbers (spec/95_test_vectors.md; the id of the vector stands in each
docstring) and, for every statement with hypotheses, a state that meets them, one per clause at the values where clauses
meet. -/

namespace Sys2Proof.Tests

open Sys2Proof.Machine

/-! ## Helpers -/

/-- The next state an outcome holds, if it is one. -/
def nextOf : Out → Option State
  | .next t => some t
  | .fault _ => none
  | .refused _ => none

/-- The fault an outcome holds, if it is one. -/
def faultOf : Out → Option Fault
  | .next _ => none
  | .fault f => some f
  | .refused _ => none

/-- After reset, with the key bytes "AB" loaded. -/
def keyed : State := { State.reset with key := [(0, 0x41), (1, 0x42)], klen := 2 }

/-- After reset, with the text "0,0,0". -/
def texted : State := { State.reset with txt := [(0, 0x30), (1, 0x2C), (2, 0x30), (3, 0x2C), (4, 0x30)], tlen := 5 }

/-- After reset, with an ACC. -/
def withAcc (a : BitVec 40) : State := { State.reset with acc := a }

/-- After reset, with the operands of MODPOW. -/
def powers (b e m : BitVec 64) : State := { State.reset with opa := b, ope := e, opm := m }

/-- A word latched in a state whose BUSY is 1. -/
def latched (w : CmdWord) : State := { State.reset with cw := w, busy := true }

/-! ## Constants (00_scope.md R3, R4) -/

theorem test_constants :
    Config.m3 = Config.p1 * Config.p2 * Config.p3 ∧ Config.m2 = Config.p2 * Config.p3 ∧
    Config.xk = Config.p1 ^^^ Config.p2 ^^^ Config.p3 ∧
    (Config.matCol0 0, Config.matCol0 1, Config.matCol0 2) = (2, 7, 17) := by decide

/-- R24: the seven ASCII bytes of "CITADEL", then 7. -/
theorem test_id : Config.idValue = 0x43#8 ++ 0x49#8 ++ 0x54#8 ++ 0x41#8 ++ 0x44#8 ++ 0x45#8 ++ 0x4C#8 ++ 0x07#8 := by
  decide

/-! ## Decoding: one word per command, from R83 and 95_test_vectors.md section 3 -/

theorem test_decode_nop : decodeTableWord 32 0b00000000000000000000000000000000 = some .nop := by decide
theorem test_decode_modpow : decodeTableWord 32 0b00000001000000000000000000000000 = some .modpow := by decide
theorem test_decode_hinit : decodeTableWord 32 0b00010000000000000000000000000000 = some .hinit := by decide
theorem test_decode_habs : decodeTableWord 32 0b00010001000000000000000001010011 = some (.habs 83) := by decide
theorem test_decode_hfeed : decodeTableWord 32 0b00010010000000000000000000000000 = some .hfeed := by decide
theorem test_decode_hexp : decodeTableWord 32 0b00010011000000000000000000000000 = some .hexp := by decide
theorem test_decode_hmix : decodeTableWord 32 0b00010100000000000000000000000000 = some .hmix := by decide
theorem test_decode_hmat : decodeTableWord 32 0b00010101000000000000000000000000 = some .hmat := by decide
theorem test_decode_hstr : decodeTableWord 32 0b00010110000000000000000000000000 = some .hstr := by decide
theorem test_decode_hfin : decodeTableWord 32 0b00010111000000000000000000000000 = some .hfin := by decide
theorem test_decode_rounds : decodeTableWord 32 0b00011000000000000100111000011111 = some (.rounds 19999) := by decide
theorem test_decode_derive : decodeTableWord 32 0b00011001000000000000000000000000 = some .derive := by decide
theorem test_decode_kload : decodeTableWord 32 0b00011010000000000000000000000000 = some .kload := by decide
theorem test_decode_sstart : decodeTableWord 32 0b00100000000000000000000000000000 = some .sstart := by decide
theorem test_decode_sbit : decodeTableWord 32 0b00100001000000000000000000000001 = some (.sbit 1) := by decide
theorem test_decode_sxor : decodeTableWord 32 0b00100010000000000000000001001000 = some (.sxor 72) := by decide
theorem test_decode_schk : decodeTableWord 32 0b00100011000000000000000000000000 = some .schk := by decide
theorem test_decode_dstart : decodeTableWord 32 0b00101000000000000000000000000000 = some .dstart := by decide
theorem test_decode_dbit : decodeTableWord 32 0b00101001000000000000000000000001 = some (.dbit 1) := by decide
theorem test_decode_dxor : decodeTableWord 32 0b00101010000000000000000011111111 = some (.dxor 255) := by decide

/-- The illegal words of ER-1 to ER-5 and of section 3 decode to none, each for its own reason. -/
theorem test_illegal_words :
    decode 0x00000001 = .error .operandBits ∧ decode 0x02000000 = .error .unknownOpcode ∧
    decode 0x10010000 = .error .reservedField ∧ decode 0x21000002 = .error .operandBits ∧
    decode 0x22000100 = .error .operandBits ∧ decode 0x22000148 = .error .operandBits ∧
    decode 0x11FF0053 = .error .reservedField := by
  refine ⟨rfl, rfl, rfl, rfl, rfl, rfl, rfl⟩

/-! ## Well-formedness: a term that each format's check refuses, beside the largest it takes (R81, R86) -/

theorem test_wf_z : AsmLine.WellFormed ⟨.derive, 1⟩ = false ∧ AsmLine.WellFormed ⟨.derive, 0⟩ = true := by decide
theorem test_wf_i1 : AsmLine.WellFormed ⟨.sbit, 2⟩ = false ∧ AsmLine.WellFormed ⟨.dbit, 1⟩ = true := by decide
theorem test_wf_i8 : AsmLine.WellFormed ⟨.sxor, 256⟩ = false ∧ AsmLine.WellFormed ⟨.dxor, 255⟩ = true := by decide
theorem test_wf_i16 : AsmLine.WellFormed ⟨.habs, 65536⟩ = false ∧ AsmLine.WellFormed ⟨.rounds, 65535⟩ = true := by
  decide
theorem test_wf_assembler : assemble ⟨.sxor, 256⟩ = none ∧ assemble ⟨.sxor, 72⟩ = some (.sxor 0x48) := by decide

/-- The canonical form refuses a listed zero, a repeated offset, a falling one and one past the end. -/
theorem test_memory_wf :
    Memory.wf 64 [(0, 0)] = false ∧ Memory.wf 64 [(3, 1), (3, 2)] = false ∧ Memory.wf 64 [(3, 1), (2, 1)] = false ∧
    Memory.wf 64 [(64, 1)] = false ∧ Memory.wf 64 [(0, 1), (63, 2)] = true ∧ Memory.wf 64 State.reset.txt = true ∧
    Memory.wf 128 State.reset.key = true := by decide

/-- A write of 0 unlists the byte, and a byte beside it stays. -/
theorem test_memory_write :
    (Memory.write [(1, 7), (4, 9)] 4 0) = [(1, 7)] ∧ (Memory.write [(4, 9)] 1 7) = [(1, 7), (4, 9)] ∧
    Memory.read [(1, 7), (4, 9)] 4 = 9 ∧ Memory.read [(1, 7), (4, 9)] 2 = 0 := by decide

/-! ## Port, flags and errors -/

/-- SY-1, SY-5. -/
theorem test_port_id_and_reserved :
    portRead 0x00 State.reset = 0x4349544144454C07 ∧ portRead 0x05 (portWrite 0x05 0xFFFF State.reset) = 0 ∧
    portRead 0x3F State.reset = 0 ∧ portRead 0x16 State.reset = 0 := by decide

/-- SY-6. -/
theorem test_port_read_only : portWrite 0x0B 7 State.reset = State.reset ∧ portWrite 0x11 7 State.reset = State.reset ∧
    portWrite 0x1B 7 State.reset = State.reset ∧ portWrite 0x00 7 State.reset = State.reset ∧
    portWrite 0x03 7 State.reset = State.reset := by decide

/-- SY-7, SY-8, SY-9, SY-10, SY-11. -/
theorem test_port_narrow_writes :
    portRead 0x10 (portWrite 0x10 0xFFFFFFFFFFFFFFFF State.reset) = 0xFFFFFFFFFF ∧
    portRead 0x15 (portWrite 0x15 0x1FFFFFFFF State.reset) = 0xFFFFFFFF ∧
    portRead 0x43 (portWrite 0x43 0x1FF State.reset) = 0xFF ∧ portRead 0x14 (portWrite 0x43 0x1FF State.reset) = 0 ∧
    portRead 0x14 (portWrite 0x14 0x140 State.reset) = 64 ∧ portRead 0x02 (portWrite 0x02 0xFF State.reset) = 3 := by
  decide

/-- ER-9, ER-10: the first error stays. -/
theorem test_bad_length :
    portRead 0x01 (portWrite 0x14 65 State.reset) = 0x604 ∧ portRead 0x03 (portWrite 0x14 65 State.reset) = 0x14 ∧
    portRead 0x03 (portWrite 0x18 129 (portWrite 0x14 65 State.reset)) = 0x14 ∧
    portRead 0x18 (portWrite 0x18 129 State.reset) = 0 ∧ portRead 0x18 (portWrite 0x18 128 State.reset) = 128 := by
  decide

/-- ER-12: a write while BUSY is dropped. -/
theorem test_busy_write :
    portRead 0x01 (portWrite 0x08 9 (portWrite 0x04 0 State.reset)) = 0x505 ∧
    portRead 0x03 (portWrite 0x08 9 (portWrite 0x04 0 State.reset)) = 0x08 ∧
    portRead 0x08 (portWrite 0x08 9 (portWrite 0x04 0 State.reset)) = 0 := by decide

/-- ER-16: a command written while an error is pending is refused silently. -/
theorem test_refused_command :
    portWrite 0x04 0x10000000 (portWrite 0x18 200 State.reset) = portWrite 0x18 200 State.reset := by decide

/-- SY-12, SY-13: the level of `irq`. -/
theorem test_irq :
    irq (portWrite 0x02 3 State.reset) = false ∧ irq { portWrite 0x02 3 State.reset with done := true } = true ∧
    irq (portWrite 0x14 99 (portWrite 0x02 3 State.reset)) = true ∧
    irq (portWrite 0x02 1 (portWrite 0x14 99 (portWrite 0x02 3 State.reset))) = false := by decide

/-- ER-1, ER-4: an illegal word at its completion. -/
theorem test_illegal_completion :
    (nextOf (step (latched 0x00000001))).map (portRead 0x01) = some 0x104 ∧
    (nextOf (step (latched 0x21000002))).map (portRead 0x03) = some 0x21000002 := by decide

/-- ER-18: reset while BUSY. -/
theorem test_reset_while_busy : hardReset (latched 0x01000000) = State.reset := by decide

/-! ## Commands -/

/-- SY-3. -/
theorem test_nop : (nextOf (exec .nop State.reset)).map (portRead 0x01) = some 2 := by decide
/-- MP-9. -/
theorem test_modpow : (nextOf (exec .modpow (powers 4 13 497))).map (·.res) = some 445 := by decide
/-- MP-6, ER-8. -/
theorem test_modpow_corners : (nextOf (exec .modpow (powers 0 0 1))).map (·.res) = some 0 ∧
    (nextOf (exec .modpow (powers 4 13 0))).map (·.errcode) = some 2 := by decide
/-- HA-1. -/
theorem test_hinit : nextOf (exec .hinit { withAcc 7 with rcnt := 9 }) = some { State.reset with done := true } := by
  decide
/-- HA-9, HA-11. -/
theorem test_habs : (nextOf (exec (.habs 255) (withAcc 988144257430))).map (·.acc) = some 218 ∧
    (nextOf (exec (.habs 65535) (withAcc 0xFFFFFFFFFF))).map (·.acc) = some 168015738539 := by decide
/-- HA-14. -/
theorem test_hfeed : (nextOf (exec .hfeed { texted with acc := 12345 })).map (·.acc) = some 92255848 := by decide
/-- HA-16, HA-19. -/
theorem test_hexp : (nextOf (exec .hexp (withAcc 97))).map (·.acc) = some 67079484 ∧
    (nextOf (exec .hexp (withAcc 988144257430))).map (·.acc) = some 99400890 := by decide
/-- HA-22, HA-23. -/
theorem test_hmix : (nextOf (exec .hmix (withAcc 99392048))).map (·.acc) = some 99400959 ∧
    (nextOf (exec .hmix (withAcc 0xFFFFFFFFFF))).map (·.acc) = some 0xFFFFFFD930 := by decide
/-- MX-1, MX-4. -/
theorem test_hmat : (nextOf (exec .hmat (withAcc 67087347))).map (fun t => (t.v0, t.v1, t.v2)) =
      some (134174694, 469611429, 1140484899) ∧
    (nextOf (exec .hmat (withAcc 0xFFFFFFFFFF))).map (fun t => (t.v0, t.v1, t.v2)) =
      some (2199023255550, 7696581394425, 18691697672175) := by decide
/-- MX-6, MX-8: "2,7,17" over an older text whose tail stays. -/
theorem test_hstr : (nextOf (exec .hstr State.reset)).map (fun t => (t.txt, t.tlen)) = some (texted.txt, 5) ∧
    (nextOf (exec .hstr { State.reset with v0 := 2, v1 := 7, v2 := 17, txt := [(6, 0x36)] })).map
        (fun t => (t.txt, t.tlen)) =
      some ([(0, 0x32), (1, 0x2C), (2, 0x37), (3, 0x2C), (4, 0x31), (5, 0x37), (6, 0x36)], 6) := by decide
/-- RD-1. -/
theorem test_hfin : (nextOf (exec .hfin State.reset)).map (fun t => (t.acc, t.v0, t.v1, t.v2, t.tlen, t.rcnt)) =
    some (9935, 19870, 69545, 168895, 18, 1) := by decide
/-- RD-13. -/
theorem test_rounds : (nextOf (exec (.rounds 1) texted)).map (fun t => (t.acc, t.v0, t.v1, t.v2, t.tlen, t.rcnt)) =
    some (94289799, 188579598, 660028593, 1602926583, 30, 1) := by decide
/-- RD-12. -/
theorem test_rounds_none : nextOf (exec (.rounds 0) texted) = some { texted with done := true } := by decide
/-- R144: the 20000 rounds are counted (the 20000 rounds themselves are too long a computation for a test). -/
theorem test_derive : (nextOf (exec .derive State.reset)).map (·.rcnt) = some 20000 := by decide
/-- RD-14, and R145's tail. -/
theorem test_kload : (nextOf (exec .kload { texted with key := [(4, 9), (5, 8)] })).map (fun t => (t.key, t.klen)) =
    some ([(0, 0x30), (1, 0x2C), (2, 0x30), (3, 0x2C), (4, 0x30), (5, 8)], 5) := by decide
/-- R156. -/
theorem test_sstart : nextOf (exec .sstart { keyed with pos := 96 }) = some { keyed with done := true } := by decide
/-- The example of R157, ER-6. -/
theorem test_sbit : (nextOf (exec (.sbit 0) keyed)).map (fun t => (t.dout, t.pos)) = some (1, 1) ∧
    (nextOf (exec (.sbit 0) { keyed with pos := 1 })).map (fun t => (t.dout, t.pos)) = some (0, 2) := by decide
/-- SC-3, SC-11. -/
theorem test_sxor : (nextOf (exec (.sxor 0x48) keyed)).map (fun t => (t.dout, t.pos)) = some (0xE2, 8) ∧
    (nextOf (exec (.sxor 0) { State.reset with
      key := [(0, 0x41), (1, 0x42), (2, 0x43)], klen := 3, pos := 0xFFFFFFFFFFFFFFFC })).map
        (fun t => (t.dout, t.pos)) = some (0xBB, 4) := by decide
/-- SC-8, SC-9. -/
theorem test_schk : (nextOf (exec .schk { State.reset with pos := 4 })).map (·.errcode) = some 4 ∧
    (nextOf (exec .schk State.reset)).map (·.done) = some true := by decide
/-- R171. -/
theorem test_dstart : nextOf (exec .dstart { keyed with dpos := 24 }) = some { keyed with done := true } := by decide
/-- The example of R172. -/
theorem test_dbit :
    (nextOf (exec (.dbit 0) { State.reset with key := [(0, 0x41)], klen := 1 })).map (·.dout) = some 1 ∧
    (nextOf (exec (.dbit 0) { State.reset with key := [(0, 0x41)], klen := 1, dpos := 1 })).map (·.dout) = some 0 := by
  decide
/-- BD-4, BD-12. -/
theorem test_dxor : (nextOf (exec (.dxor 0) keyed)).map (fun t => (t.dout, t.dpos)) = some (0x86, 8) ∧
    (nextOf (exec (.dxor 0) { State.reset with
      key := [(0, 0x41), (1, 0x42), (2, 0x43)], klen := 3, dpos := 0xFFFFFFFFFFFFFFFC })).map
        (fun t => (t.dout, t.dpos)) = some (0x68, 4) := by decide
/-- BD-1: the window values of one key byte. -/
theorem test_windows : (List.range 8).map (fun i => windowValue { State.reset with key := [(0, 0x41)], klen := 1 }
    (BitVec.ofNat 64 i)) = [5, 2, 4, 0, 0, 0, 1, 2] := by decide

/-! ## Scripts -/

/-- The pseudo-instruction SENC of one byte (R87): two commands, each followed by a poll, and a read of DOUT. -/
theorem test_script : scriptTurns (pseudoSenc [0x48]) =
    [.write 0x04 0x20000000, .engine, .read 0x01, .write 0x04 0x22000048, .engine, .read 0x01, .read 0x1B] := by decide

/-- The host's turn before the engine's, one step of a schedule (R76). -/
theorem test_schedule : (nextOf (step { State.reset with turns := [.write 0x08 5, .engine] })).map
    (fun t => (t.opa, t.turns)) = some (5, [.engine]) := by decide

/-! ## Witnesses: states and operands that meet the hypotheses of the statements -/

/-- A key of the longest legal length, all zeros. -/
def longKey : State := { State.reset with klen := 128 }

/-- A state in which every part of the invariant has work to do: both lengths at their bounds, an error recorded, listed
bytes at both ends of the buffers. -/
def busyFull : State :=
  { State.reset with
    busy := true, errcode := 5, errinfo := 0x10, cw := 0x1A000000, tlen := 64, klen := 128, v0 := 2, v1 := 7, v2 := 17,
    txt := [(0, 0x32), (63, 0x39)], key := [(0, 0x30), (127, 1)] }

theorem witness_DecodeInvertsEncode :
    (Instr.derive).WellFormed = true ∧ (Instr.sbit 1).WellFormed = true ∧ (Instr.dxor 255).WellFormed = true ∧
    (Instr.rounds 65535).WellFormed = true := by decide

theorem witness_EncodeInvertsDecode :
    decode 0x1800FFFF = .ok (.rounds 65535) ∧ decode 0x29000000 = .ok (.dbit 0) := ⟨rfl, rfl⟩

theorem witness_ExactlyTheLegalWordsAreCommands :
    legal 0x220000FF = true ∧ legal 0x22000100 = false ∧ (latched 0x22000100).cw = 0x22000100 ∧
    { latched 0x22000100 with errcode := 5 }.cw = 0x22000100 := by decide

theorem witness_MatchAndMaskSelectTheCommand :
    (0x21000001 : CmdWord) &&& Mnemonic.sbit.mask = Mnemonic.sbit.matchWord ∧
    (0x21000002 : CmdWord) &&& Mnemonic.sbit.mask ≠ Mnemonic.sbit.matchWord := by decide

theorem witness_AssemblerChecksTheOperandRange :
    assemble ⟨.sbit, 1⟩ = some (.sbit 1) ∧ assemble ⟨.sbit, 2⟩ = none ∧ assemble ⟨.nop, 0⟩ = some .nop ∧
    assemble ⟨.nop, 1⟩ = none ∧ assemble ⟨.habs, 65535⟩ = some (.habs 65535) ∧ assemble ⟨.habs, 65536⟩ = none := by
  decide

theorem witness_StepRunsTheLatchedCommand :
    (latched 0x19000000).busy = true ∧ decode (latched 0x19000000).cw = .ok .derive ∧ (latched 0x19000000).turns = [] ∧
    { latched 0x19000000 with turns := [.engine, .read 1] }.turns = .engine :: [.read 1] := ⟨rfl, rfl, rfl, rfl⟩

theorem witness_StepTakesTheHostsTurn :
    { State.reset with turns := [.read 1] }.turns = .read 1 :: [] ∧
    { latched 0 with turns := [.write 4 1] }.turns = .write 4 1 :: [] ∧
    { latched 0 with turns := [.rst] }.turns = .rst :: [] ∧
    { State.reset with turns := [.engine] }.turns = .engine :: [] ∧ State.reset.busy = false ∧
    State.reset.turns = [] := by decide

theorem witness_StepKeepsTheInvariant :
    busyFull.Inv ∧ (∃ t, step busyFull = .next t) ∧ { busyFull with turns := [.write 0x7F 0] }.Inv ∧
    ∃ t, step { busyFull with turns := [.write 0x7F 0] } = .next t :=
  ⟨by decide, ⟨_, rfl⟩, by decide, ⟨_, rfl⟩⟩

theorem witness_StepKeepsTheVectorShape :
    busyFull.VectorOfAcc ∧ ∃ t, step busyFull = .next t := ⟨⟨1, by decide⟩, ⟨_, rfl⟩⟩

theorem witness_StepNeverStopsFromTheInvariant : busyFull.Inv ∧ State.reset.Inv := by decide

theorem witness_BusyEngineCompletes :
    busyFull.Inv ∧ busyFull.busy = true ∧ { busyFull with turns := [.read 1, .engine] }.Inv ∧
    { busyFull with turns := [.read 1, .engine] }.busy = true := by decide

/-- One command that completes, each of the three that raise an error, and one that raises it while one is pending. -/
theorem witness_CommandsAreAllOrNothing :
    (∃ t, exec .nop busyFull = .next t) ∧ (∃ t, exec .modpow (powers 4 13 0) = .next t) ∧
    (∃ t, exec (.sxor 1) State.reset = .next t) ∧ (∃ t, exec .schk { keyed with pos := 4 } = .next t) ∧
    (powers 4 13 0).errcode = 0 ∧ (∃ t, exec .modpow busyFull = .next t) ∧ busyFull.errcode ≠ 0 :=
  ⟨⟨_, rfl⟩, ⟨_, rfl⟩, ⟨_, rfl⟩, ⟨_, rfl⟩, rfl, ⟨_, rfl⟩, by decide⟩

/-- TLEN 65; KLEN 129 with a position that uses key byte 128, first or last of eight. -/
theorem witness_OutOfRangeLengthsStop :
    64 < { texted with tlen := 65 }.tlen.toNat ∧ (1 : BitVec 16) ≠ 0 ∧
    (let s := { State.reset with klen := 129, pos := 128, dpos := 128 }
     128 ≤ s.pos.toNat % s.klen.toNat ∧ 128 ≤ s.dpos.toNat % s.klen.toNat ∧ s.klen ≠ 0) ∧
    (let s := { State.reset with klen := 129, pos := 121, dpos := 121 }
     128 ≤ (s.pos.toNat + 7) % 2 ^ 64 % s.klen.toNat ∧ 128 ≤ (s.dpos.toNat + 7) % 2 ^ 64 % s.klen.toNat) ∧
    faultOf (exec .kload { texted with tlen := 65 }) = some .txtIndex ∧
    faultOf (exec (.sxor 0) { State.reset with klen := 129, pos := 121 }) = some .keyIndex := by decide

theorem witness_CommandsKeepTheHostsRegisters : ∃ t, exec .kload busyFull = .next t := ⟨_, rfl⟩

/-- NOP is outside every list, and each list's first command is outside the other lists. -/
theorem witness_OnlyTheNamedCommandsWrite :
    (∃ t, exec .nop busyFull = .next t) ∧ (∃ t, exec .hinit busyFull = .next t) ∧
    (∃ t, exec .hstr busyFull = .next t) ∧ (∃ t, exec .kload busyFull = .next t) ∧
    (∃ t, exec .sstart busyFull = .next t) ∧ (∃ t, exec (.dbit 1) busyFull = .next t) :=
  ⟨⟨_, rfl⟩, ⟨_, rfl⟩, ⟨_, rfl⟩, ⟨_, rfl⟩, ⟨_, rfl⟩, ⟨_, rfl⟩⟩

/-- The first and last index of each range of the register map. -/
theorem witness_PortReadReturnsTheRegisterMap :
    portRead 0x40 busyFull = 0x32 ∧ portRead 0x7F busyFull = 0x39 ∧ portRead 0x80 busyFull = 0x30 ∧
    portRead 0xFF busyFull = 1 ∧ portRead 0x3F busyFull = 0 ∧ portRead 0x1C busyFull = 0 := by decide

theorem witness_IdleWriteStoresTheLowBits :
    State.reset.busy = false ∧ (portWrite 0x7F 0x1FF State.reset).txt = [(63, 0xFF)] ∧
    (portWrite 0xFF 0x1FF State.reset).key = [(127, 0xFF)] := by decide

theorem witness_WriteIsReadBackAndIsolated :
    (let s := { busyFull with busy := false }
     s.busy = false ∧ s.txt.wf 64 = true ∧ s.key.wf 128 = true ∧
     portRead 0x1A (portWrite 0x1A 7 s) = 7 ∧ portRead 0x10 (portWrite 0x10 (2 ^ 40) s) = 0 ∧
     portRead 0x15 (portWrite 0x15 (2 ^ 32 + 1) s) = 1 ∧ portRead 0x40 (portWrite 0x40 0 s) = 0 ∧
     portRead 0x7F (portWrite 0x7F 256 s) = 0 ∧ portRead 0x80 (portWrite 0x80 5 s) = 5 ∧
     portRead 0x81 (portWrite 0x80 5 s) = portRead 0x81 s) := by decide

theorem witness_ReservedAndReadOnlyIndicesIgnoreWrites :
    (∀ n ∈ [0x05, 0x07, 0x0C, 0x0F, 0x16, 0x17, 0x1C, 0x3F, 0x00, 0x1B],
      portWrite (BitVec.ofNat 8 n) 5 { busyFull with busy := false } = { busyFull with busy := false }) ∧
    { busyFull with busy := false }.busy = false := by decide

theorem witness_WriteWhileBusyIsDropped :
    busyFull.busy = true ∧ (latched 0).busy = true ∧ (portWrite 0x00 7 (latched 0)).errinfo = 0 ∧
    (portWrite 0x00 7 (latched 0)).errcode = 5 ∧ (portWrite 0x03 7 (latched 0)).errinfo = 3 ∧
    (portWrite 0xFF 7 (latched 0)).errinfo = 255 ∧ (portWrite 0x01 4 busyFull).errcode = 0 ∧
    (portWrite 0x02 1 busyFull).errcode = 5 := by decide

theorem witness_CmdWriteIsDroppedRefusedOrAccepted :
    busyFull.busy = true ∧ { busyFull with busy := false }.busy = false ∧ { busyFull with busy := false }.errcode ≠ 0 ∧
    State.reset.busy = false ∧ State.reset.errcode = 0 := by decide

/-- The lengths on both sides of each bound, and one whose high bits are ignored. -/
theorem witness_LengthWritesAreChecked :
    State.reset.busy = false ∧ (64 : Data).toNat % 256 ≤ 64 ∧ 64 < (65 : Data).toNat % 256 ∧
    (0x140 : Data).toNat % 256 ≤ 64 ∧ (128 : Data).toNat % 256 ≤ 128 ∧ 128 < (129 : Data).toNat % 256 ∧
    portWrite 0x14 64 State.reset = { State.reset with tlen := 64 } ∧
    portWrite 0x18 128 State.reset = { State.reset with klen := 128 } := by decide

theorem witness_FirstErrorWins : State.reset.errcode = 0 ∧ busyFull.errcode ≠ 0 := by decide

theorem witness_EveryErrorCanBeLeft :
    { busyFull with busy := false }.busy = false ∧ { busyFull with busy := false }.errcode ≠ 0 := by decide

theorem witness_ResetZeroesEveryComponent : (0xFF : Index) ≠ 0 ∧ (0x01 : Index) ≠ 0 := by decide

theorem witness_ModpowIsThePowerFunction : 1 ≤ 1 ∧ 1 ≤ 497 ∧ modpow 4 13 497 = 445 ∧ modpow 0 0 1 = 0 := by decide

theorem witness_ModpowLaws : 1 < 2 ∧ modpow 1 0 2 = 1 := by decide

theorem witness_ModpowStoresThePower :
    (powers 5 3 1).opm ≠ 0 ∧ (powers 4 13 497).opm ≠ 0 ∧ (powers 4 13 0).opm = 0 ∧
    { powers 4 13 0 with errcode := 5 }.opm = 0 := by decide

theorem witness_HfeedFoldsTheText :
    busyFull.tlen.toNat ≤ 64 ∧ texted.tlen.toNat ≤ 64 ∧ State.reset.tlen.toNat ≤ 64 := by decide

/-- HA-22, and the largest value below `M2`. -/
theorem witness_HmixXorsAndUndoesItself :
    (withAcc 99392048).acc.toNat < 99400891 ∧ (withAcc 99400890).acc.toNat < 99400891 ∧
    ¬ (withAcc 99400891).acc.toNat < 99400891 := by decide

theorem witness_AccumulatorBounds :
    (∃ t, exec (.habs 255) (withAcc 988144257430) = .next t) ∧ (∃ t, exec .hfeed texted = .next t) ∧
    ∃ t, exec .hexp (withAcc 97) = .next t ∧ ∃ u, exec .hmix t = .next u :=
  ⟨⟨_, rfl⟩, ⟨_, rfl⟩, _, rfl, _, rfl⟩

theorem witness_VectorTextIsCommaJoinedDecimal :
    dec 10 = [0x31, 0x30] ∧ (0x30 : Byte) ∈ dec 10 ∧ dec 9 = [0x39] ∧ (10 : Nat) ≠ 0 := by decide

theorem witness_HstrWritesTheVectorText :
    busyFull.txt.wf 64 = true ∧ State.reset.txt.wf 64 = true ∧
    (str3 2 7 17)[5]? = some 0x37 ∧ (str3 2 7 17).length = 6 := by decide

theorem witness_TextLengthBounds :
    (∃ t, exec .hstr busyFull = .next t) ∧ busyFull.VectorOfAcc ∧ busyFull.txt.wf 64 = true ∧
    ∃ t, exec .hfin busyFull = .next t := ⟨⟨_, rfl⟩, ⟨1, by decide⟩, by decide, ⟨_, rfl⟩⟩

theorem witness_RoundsRepeatHfeedAndHfin :
    0 + 1 < 2 ^ 16 ∧ 65534 + 1 < 2 ^ 16 ∧ busyFull.tlen.toNat ≤ 64 ∧ texted.tlen.toNat ≤ 64 := by decide

theorem witness_KloadCopiesTheText :
    busyFull.tlen.toNat ≤ 64 ∧ busyFull.key.wf 128 = true ∧ State.reset.tlen.toNat ≤ 64 ∧
    State.reset.key.wf 128 = true := by decide

theorem witness_CompositesKeepTheBufferTails :
    busyFull.txt.wf 64 = true ∧ busyFull.key.wf 128 = true ∧ (∃ t, exec .hfin busyFull = .next t) ∧
    (∃ t, exec (.rounds 1) busyFull = .next t) ∧ ∃ t, exec .derive busyFull = .next t :=
  ⟨by decide, by decide, ⟨_, rfl⟩, ⟨_, rfl⟩, ⟨_, rfl⟩⟩

theorem witness_DerivedKeyIsShortAndFixedByAcc : busyFull.txt.wf 64 = true ∧ busyFull.key.wf 128 = true := by decide

/-- The longest text the buffer form takes, and the empty one. -/
theorem witness_DerivationsAgree :
    (List.replicate 64 (0x41 : Byte)).length ≤ 64 ∧ ([] : List Byte).length ≤ 64 ∧ busyFull.txt.wf 64 = true ∧
    busyFull.key.wf 128 = true := by decide

/-- The shortest and the longest key, and none, with and without a pending error. -/
theorem witness_SbitXorsTheKeyStreamBit :
    keyed.klen ≠ 0 ∧ keyed.klen.toNat ≤ 128 ∧ longKey.klen ≠ 0 ∧ longKey.klen.toNat ≤ 128 ∧ State.reset.klen = 0 ∧
    { State.reset with errcode := 5 }.klen = 0 := by decide

theorem witness_SxorIsEightSbits :
    { keyed with klen := 1 }.klen ≠ 0 ∧ { keyed with klen := 1 }.klen.toNat ≤ 128 ∧ longKey.klen.toNat ≤ 128 ∧
    0 < 8 ∧ 7 < 8 ∧ State.reset.klen = 0 := by decide

theorem witness_SchkChecksTheLength :
    State.reset.pos.toNat % 8 = 0 ∧ { keyed with pos := 96 }.pos.toNat % 8 = 0 ∧
    { keyed with pos := 7 }.pos.toNat % 8 ≠ 0 := by decide

/-- The second pass starts from another state that shares only KEY, KLEN and POS with the first. -/
theorem witness_CipherPassUndoesItself :
    keyed.klen ≠ 0 ∧ keyed.klen.toNat ≤ 128 ∧ { keyed with dpos := 3, acc := 9, done := true }.key = keyed.key ∧
    { keyed with dpos := 3, acc := 9, done := true }.klen = keyed.klen ∧
    { keyed with dpos := 3, acc := 9, done := true }.pos = keyed.pos := by decide

theorem witness_WindowMaskIsTheNextBit :
    ∃ kb : Nat → Bool, ∀ t, kb t = (keyed.key.read ((9 : BitVec 64).toNat % keyed.klen.toNat)).getLsbD (7 - t) :=
  ⟨_, fun _ => rfl⟩

theorem witness_DbitXorsTheWindowBit :
    keyed.klen ≠ 0 ∧ keyed.klen.toNat ≤ 128 ∧ longKey.klen.toNat ≤ 128 ∧ State.reset.klen = 0 := by decide

theorem witness_DxorIsEightDbits :
    keyed.klen ≠ 0 ∧ keyed.klen.toNat ≤ 128 ∧ longKey.klen.toNat ≤ 128 ∧ 7 < 8 ∧ State.reset.klen = 0 := by decide

theorem witness_DiffuserPassUndoesItself :
    keyed.klen ≠ 0 ∧ keyed.klen.toNat ≤ 128 ∧ { keyed with pos := 3, acc := 9, done := true }.key = keyed.key ∧
    { keyed with pos := 3, acc := 9, done := true }.klen = keyed.klen ∧
    { keyed with pos := 3, acc := 9, done := true }.dpos = keyed.dpos := by decide

theorem witness_CipherAndDiffuserAreIndependent :
    (Instr.dxor 1).mnemonic ∈ [Mnemonic.dstart, .dbit, .dxor] ∧ (Instr.sxor 1).mnemonic ∈ [Mnemonic.sbit, .sxor] ∧
    (Instr.schk).mnemonic ∈ [Mnemonic.sstart, .sbit, .sxor, .schk] ∧ (Instr.dbit 1).mnemonic ∈ [Mnemonic.dbit, .dxor] ∧
    keyed.klen ≠ 0 ∧ (nextOf (exec (.dxor 1) keyed)).isSome = true ∧ (nextOf (exec (.sxor 1) keyed)).isSome = true ∧
    (nextOf (exec .schk { keyed with pos := 4 })).isSome = true ∧
    (nextOf (exec (.dbit 1) { keyed with pos := 4 })).isSome = true := by decide

end Sys2Proof.Tests
end

