-- ==== Sys2Proof/Proofs/Scope.lean ====
section
/-! PROOFS. The statements of spec/00_scope.md about the order of steps (R6) and the bounds of the buffers (R8). -/

namespace Sys2Proof.Machine

/-! ## The step, by who moves -/

/-- The next turn of the schedule is taken with that turn already removed (R76, log 2). -/
theorem step_of_turn {s : State} {t : Turn} {rest : List Turn} (h : s.turns = t :: rest) :
    step s = takeTurn t { s with turns := rest } := by
  simp only [step, nextStep, h]

/-- With the schedule used up the engine moves (R6, log 5). -/
theorem step_of_no_turns {s : State} (h : s.turns = []) : step s = engineTurn s := by
  simp only [step, nextStep, h]

theorem engineTurn_idle {s : State} (h : s.busy = false) : engineTurn s = .next s := by
  simp [engineTurn, h]

theorem engineTurn_busy {s : State} (h : s.busy = true) : engineTurn s = completion s := by
  simp [engineTurn, h]

/-- The port reads the engine only, not the schedule (R61, log 2). -/
theorem portRead_turns (idx : Index) (s : State) (turns : List Turn) :
    portRead idx { s with turns := turns } = portRead idx s := by
  rw [portRead, portRead]
  cases regAt idx <;> rfl

/-! ## The completion ends BUSY -/

/-- Whether it completes or raises its error, a command leaves BUSY = 0 (R88, R89, R188). -/
theorem exec_next_busy {i : Instr} {s t : State} (h : exec i s = .next t) : t.busy = false := by
  rcases exec_next h with ⟨e, _, rfl⟩ | rfl
  · exact raiseError_busy e s.cw s
  · exact complete_busy (effect i s)

/-- The completion of any latched word, legal or not, answers a state with BUSY = 0, where both lengths are legal
(R88, R240). -/
theorem completion_answers_idle {s : State} (htlen : s.tlen.toNat ≤ 64) (hklen : s.klen.toNat ≤ 128) :
    ∃ t, completion s = .next t ∧ t.busy = false := by
  rw [completion]
  cases decode s.cw with
  | error e => exact ⟨_, rfl, raiseError_busy .illCmd s.cw s⟩
  | ok i =>
    obtain ⟨t, ht⟩ := exec_answers i htlen hklen
    exact ⟨t, ht, exec_next_busy ht⟩

/-! ## What a host turn can do to a BUSY engine -/

/-- A write while BUSY reaches DONE, the error record and the interrupt enables only (R63, R67, R68). -/
theorem portWrite_busy_frame {s : State} (h : s.busy = true) (idx : Index) (v : Data) :
    ∃ done errcode errinfo ieDone ieErr, portWrite idx v s =
      { s with done := done, errcode := errcode, errinfo := errinfo, ieDone := ieDone, ieErr := ieErr } := by
  rw [portWrite_busy h]
  cases regAt idx
  case status => exact ⟨_, _, _, _, _, writeStatus_eq v s⟩
  case ctrl => exact ⟨_, _, _, _, _, rfl⟩
  all_goals exact ⟨_, _, _, _, _, raiseBusyWrite_eq idx s⟩

/-- The command of `s` is still latched in `u`, with the lengths and the schedule `s` has. -/
structure StillBusy (s u : State) : Prop where
  busy : u.busy = true
  tlen : u.tlen = s.tlen
  klen : u.klen = s.klen
  turns : u.turns = s.turns

/-- A turn taken while BUSY ends BUSY (a completion or a reset) or keeps the command latched (a port access). -/
theorem takeTurn_while_busy (t : Turn) {s : State} (hbusy : s.busy = true) (htlen : s.tlen.toNat ≤ 64)
    (hklen : s.klen.toNat ≤ 128) : ∃ u, takeTurn t s = .next u ∧ (u.busy = false ∨ StillBusy s u) := by
  cases t with
  | read idx => exact ⟨_, rfl, .inr ⟨hbusy, rfl, rfl, rfl⟩⟩
  | write idx v =>
    obtain ⟨_, _, _, _, _, hw⟩ := portWrite_busy_frame hbusy idx v
    exact ⟨_, congrArg Host.Outcome.next hw, .inr ⟨hbusy, rfl, rfl, rfl⟩⟩
  | rst => exact ⟨_, rfl, .inl rfl⟩
  | engine =>
    obtain ⟨u, hu, hidle⟩ := completion_answers_idle htlen hklen
    exact ⟨u, (engineTurn_busy hbusy).trans hu, .inl hidle⟩

/-! ## Runs -/

theorem run_succ_of_step {s u : State} (h : step s = .next u) (k : Nat) :
    Sys2Proof.core.run (k + 1) s = Sys2Proof.core.run k u := by
  have hc : Sys2Proof.core.step s = .next u := h
  simp only [Host.Core.run, hc]

/-- A latched command completes or is discarded by a reset, whatever turns stand before the engine's: by induction on
the schedule, as every turn that leaves BUSY = 1 is one the schedule then lacks (R6). -/
theorem run_ends_busy (turns : List Turn) {s : State} (hturns : s.turns = turns) (hbusy : s.busy = true)
    (htlen : s.tlen.toNat ≤ 64) (hklen : s.klen.toNat ≤ 128) :
    ∃ k t, k ≤ turns.length + 1 ∧ Sys2Proof.core.run k s = .next t ∧ t.busy = false := by
  induction turns generalizing s with
  | nil =>
    obtain ⟨t, ht, hidle⟩ := completion_answers_idle htlen hklen
    have hstep : step s = .next t := by rw [step_of_no_turns hturns, engineTurn_busy hbusy, ht]
    exact ⟨1, t, Nat.le_refl _, run_succ_of_step hstep 0, hidle⟩
  | cons turn rest ih =>
    obtain ⟨u, hu, hend⟩ := takeTurn_while_busy turn (s := { s with turns := rest }) hbusy htlen hklen
    have hstep : step s = .next u := (step_of_turn hturns).trans hu
    rcases hend with hidle | still
    · exact ⟨1, u, Nat.le_add_left _ _, run_succ_of_step hstep 0, hidle⟩
    · obtain ⟨k, t, hk, hrun, hidle⟩ :=
        ih still.turns still.busy (still.tlen ▸ htlen) (still.klen ▸ hklen)
      exact ⟨k + 1, t, Nat.succ_le_succ hk, (run_succ_of_step hstep k).trans hrun, hidle⟩

/-! ## Key bytes that do not exist -/

/-- The case of one position: the command reads the key at `p` itself (R157, R172). -/
theorem withKey_stops_at {s : State} {p : BitVec 64} (h0 : s.klen ≠ 0) (h : 128 ≤ p.toNat % s.klen.toNat) (r : State) :
    withKey s p 1 r = .fault .keyIndex := by
  refine withKey_stops h0 Nat.zero_lt_one ?_ r
  rwa [Nat.add_zero, Nat.mod_eq_of_lt p.isLt]

/-! ## The obligations -/

/-- Settles O13: the induction on the schedule, from the two lengths of the invariant. -/
theorem busyEngineCompletes : Obligations.BusyEngineCompletes := by
  intro s ⟨htlen, hklen, _⟩ hbusy
  exact run_ends_busy s.turns rfl hbusy htlen hklen

/-- Settles O15: every command named ends in `withText` or `withKey`, which stop at such a length. -/
theorem outOfRangeLengthsStop : Obligations.OutOfRangeLengthsStop := by
  refine ⟨fun s h => ⟨withText_stops h _, withText_stops h _, fun n hn => ?_⟩,
    fun s b h h0 => withKey_stops_at h0 h _, fun s b h h0 => withKey_stops_at h0 h _,
    fun s x k hk h0 => ⟨fun h => withKey_stops h0 hk h _, fun h => withKey_stops h0 hk h _⟩⟩
  exact (if_neg hn).trans (withText_stops h _)

/-- Settles O8: `takeTurn` performs each host turn, and an idle engine waits. -/
theorem stepTakesTheHostsTurn : Obligations.StepTakesTheHostsTurn := by
  intro s rest
  refine ⟨fun idx h => ?_, fun idx v h => step_of_turn h, fun h => step_of_turn h, fun hidle h => ?_, fun hidle h => ?_⟩
  · exact (step_of_turn h).trans (by rw [takeTurn, portRead_turns])
  · exact (step_of_turn h).trans (engineTurn_idle hidle)
  · exact (step_of_no_turns h).trans (engineTurn_idle hidle)

end Sys2Proof.Machine
end

