-- ==== Sys2Proof/Proofs/State.lean ====
section
/-! PROOFS. The statements of spec/10_state.md: the invariant of R46, which registers a command may write (R26 to R40),
`irq` (R43) and the reset state (R45). -/

namespace Sys2Proof.Machine

/-! ## What a command's effect leaves unchanged

DERIVE is among the commands, so each case is closed by the field lemmas of Laws/State.lean and none by evaluation. -/

/-- No effect reaches the host's registers, the error record or the model's own fields (R26, R28, R29, R78, R89). -/
theorem effect_host_frame (i : Instr) (s : State) :
    (effect i s).cw = s.cw ∧ (effect i s).opa = s.opa ∧ (effect i s).ope = s.ope ∧ (effect i s).opm = s.opm ∧
    (effect i s).ieDone = s.ieDone ∧ (effect i s).ieErr = s.ieErr ∧ (effect i s).turns = s.turns ∧
    (effect i s).rdata = s.rdata ∧ (effect i s).errcode = s.errcode ∧ (effect i s).errinfo = s.errinfo := by
  cases i <;> simp [effect]

/-! Register by register: an effect writes what the spec names its command for (R30 to R40, R175). -/

section Writers
variable {i : Instr} (s : State)

theorem effect_res (h : i.mnemonic ≠ .modpow) : (effect i s).res = s.res := by
  cases i
  case modpow => exact absurd rfl h
  all_goals simp [effect]

theorem effect_acc (h : i.mnemonic ∉ [.hinit, .habs, .hfeed, .hexp, .hmix, .hfin, .rounds, .derive]) :
    (effect i s).acc = s.acc := by
  cases i
  case hinit | habs | hfeed | hexp | hmix | hfin | rounds | derive => simp [Instr.mnemonic] at h
  all_goals simp [effect]

theorem effect_vector (h : i.mnemonic ∉ [.hmat, .hfin, .rounds, .derive]) :
    (effect i s).v0 = s.v0 ∧ (effect i s).v1 = s.v1 ∧ (effect i s).v2 = s.v2 := by
  cases i
  case hmat | hfin | rounds | derive => simp [Instr.mnemonic] at h
  all_goals simp [effect]

theorem effect_text (h : i.mnemonic ∉ [.hstr, .hfin, .rounds, .derive]) :
    (effect i s).txt = s.txt ∧ (effect i s).tlen = s.tlen := by
  cases i
  case hstr | hfin | rounds | derive => simp [Instr.mnemonic] at h
  all_goals simp [effect]

theorem effect_rcnt (h : i.mnemonic ∉ [.hinit, .hfin, .rounds, .derive]) : (effect i s).rcnt = s.rcnt := by
  cases i
  case hinit | hfin | rounds | derive => simp [Instr.mnemonic] at h
  all_goals simp [effect]

theorem effect_key (h : i.mnemonic ∉ [.kload, .derive]) :
    (effect i s).key = s.key ∧ (effect i s).klen = s.klen := by
  cases i
  case kload | derive => simp [Instr.mnemonic] at h
  all_goals simp [effect]

theorem effect_pos (h : i.mnemonic ∉ [.sstart, .sbit, .sxor]) : (effect i s).pos = s.pos := by
  cases i
  case sstart | sbit | sxor => simp [Instr.mnemonic] at h
  all_goals simp [effect]

theorem effect_dpos (h : i.mnemonic ∉ [.dstart, .dbit, .dxor]) : (effect i s).dpos = s.dpos := by
  cases i
  case dstart | dbit | dxor => simp [Instr.mnemonic] at h
  all_goals simp [effect]

theorem effect_dout (h : i.mnemonic ∉ [.sbit, .sxor, .dbit, .dxor]) : (effect i s).dout = s.dout := by
  cases i
  case sbit | sxor | dbit | dxor => simp [Instr.mnemonic] at h
  all_goals simp [effect]

end Writers

/-! ## Lengths and buffers after a command -/

/-- A run of rounds keeps TLEN legal and TXT canonical (R133, R143). -/
theorem repeatRounds_legal (n : Nat) {x : RoundRegs} (htlen : x.tlen.toNat ≤ 64)
    (htxt : x.txt.wf Config.txtCap = true) :
    (repeatRounds n x).tlen.toNat ≤ 64 ∧ (repeatRounds n x).txt.wf Config.txtCap = true := by
  refine ⟨?_, repeatRounds_wf n htxt⟩
  rcases repeatRounds_tlen n x with h | h
  · rwa [h]
  · omega

/-- A finished round leaves a text of at most 30 bytes, whatever stood in TLEN (R133, R141). -/
theorem finishRound_legal {x : RoundRegs} (htxt : x.txt.wf Config.txtCap = true) :
    (finishRound x).tlen.toNat ≤ 64 ∧ (finishRound x).txt.wf Config.txtCap = true :=
  ⟨(finishRound_after x).tlen.2.trans (by decide), finishRound_wf htxt⟩

/-- The key load leaves a legal KLEN, whatever TLEN holds, and KEY canonical (R145). -/
theorem loadKey_legal {s : State} (hkey : s.key.wf Config.keyCap = true) :
    (loadKey s).klen.toNat ≤ 128 ∧ (loadKey s).key.wf Config.keyCap = true :=
  ⟨(loadKey_klen_toNat s).trans_le s.tlen.isLt.le, loadKey_wf hkey⟩

/-- Every text a command stores has at most 64 bytes, so TLEN stays legal and TXT canonical (R33, R133). -/
theorem effect_text_legal (i : Instr) {s : State} (htlen : s.tlen.toNat ≤ 64) (htxt : s.txt.wf Config.txtCap = true) :
    (effect i s).tlen.toNat ≤ 64 ∧ (effect i s).txt.wf Config.txtCap = true := by
  cases i
  case hstr =>
    have hlen : (str3 s.v0.toNat s.v1.toNat s.v2.toNat).length ≤ 64 :=
      (str3_length_bounds s.v0.isLt s.v1.isLt s.v2.isLt).2.trans (by decide)
    exact ⟨(tlen_ofNat hlen).trans_le hlen, stored_wf hlen htxt⟩
  case hfin => exact finishRound_legal (x := s.roundRegs) htxt
  case rounds n => exact repeatRounds_legal n.toNat (x := s.roundRegs) htlen htxt
  case derive =>
    obtain ⟨n, -, heff⟩ := effect_derive s
    obtain ⟨htlen1, htxt1⟩ := finishRound_legal (x := s.roundRegs) htxt
    rw [heff]
    exact repeatRounds_legal (n + 1) htlen1 htxt1
  all_goals simpa [effect] using ⟨htlen, htxt⟩

/-- KLOAD and DERIVE store to KEY by the key load, and no other command stores there (R35, R40). -/
theorem effect_key_legal (i : Instr) {s : State} (hklen : s.klen.toNat ≤ 128) (hkey : s.key.wf Config.keyCap = true) :
    (effect i s).klen.toNat ≤ 128 ∧ (effect i s).key.wf Config.keyCap = true := by
  cases i
  case kload => exact loadKey_legal hkey
  case derive =>
    obtain ⟨n, -, heff⟩ := effect_derive s
    rw [heff]
    exact loadKey_legal hkey
  all_goals simpa [effect] using ⟨hklen, hkey⟩

/-! ## The invariant of R46, operation by operation -/

/-- An error leaves its code, from 1 to 6, or the one that was pending (R186, R188). -/
theorem recordError_inv (e : ErrorCode) (w : BitVec 32) {s : State} (hs : s.Inv) : (recordError e w s).Inv := by
  have hcode := errorCode_range e
  obtain ⟨htlen, hklen, herr, hflags, hinfo, htxt, hkey⟩ := hs
  rw [recordError]
  split_ifs with h0
  · refine ⟨htlen, hklen, hcode.2, hflags, fun h => ?_, htxt, hkey⟩
    have : e.code.toNat = 0 := congrArg BitVec.toNat h
    omega
  · exact ⟨htlen, hklen, herr, hflags, hinfo, htxt, hkey⟩

theorem raiseError_inv (e : ErrorCode) (w : BitVec 32) {s : State} (hs : s.Inv) : (raiseError e w s).Inv := by
  obtain ⟨htlen, hklen, herr, -, hinfo, htxt, hkey⟩ := recordError_inv e w hs
  exact ⟨htlen, hklen, herr, fun h => absurd h (by simp), hinfo, htxt, hkey⟩

/-- A command that completes clears BUSY as it sets DONE, and stores legal lengths (R88, R89). -/
theorem exec_inv {i : Instr} {s t : State} (hs : s.Inv) (h : exec i s = .next t) : t.Inv := by
  rcases exec_next h with ⟨e, -, rfl⟩ | rfl
  · exact raiseError_inv e s.cw hs
  · obtain ⟨htlen, hklen, herr, -, hinfo, htxt, hkey⟩ := hs
    obtain ⟨-, -, -, -, -, -, -, -, hcode, hdatum⟩ := effect_host_frame i s
    obtain ⟨htlen', htxt'⟩ := effect_text_legal i htlen htxt
    obtain ⟨hklen', hkey'⟩ := effect_key_legal i hklen hkey
    refine ⟨htlen', hklen', ?_, fun h => absurd h (by simp), ?_, htxt', hkey'⟩
    · rwa [complete_errcode, hcode]
    · rwa [complete_errcode, complete_errinfo, hcode, hdatum]

theorem completion_inv {s t : State} (hs : s.Inv) (h : completion s = .next t) : t.Inv := by
  rw [completion] at h
  split at h
  · cases h; exact raiseError_inv .illCmd s.cw hs
  · exact exec_inv hs h

theorem engineTurn_inv {s t : State} (hs : s.Inv) (h : engineTurn s = .next t) : t.Inv := by
  cases hbusy : s.busy with
  | true => exact completion_inv hs ((engineTurn_busy hbusy).symm.trans h)
  | false =>
    cases (engineTurn_idle hbusy).symm.trans h
    exact hs

/-- The acknowledgement clears DONE, or ERRCODE and ERRINFO together (R67). -/
theorem writeStatus_inv (v : Data) {s : State} (hs : s.Inv) : (writeStatus v s).Inv := by
  obtain ⟨htlen, hklen, herr, hflags, hinfo, htxt, hkey⟩ := hs
  rw [writeStatus_eq]
  refine ⟨htlen, hklen, ?_, fun hb => ?_, ?_, htxt, hkey⟩
  · cases v.getLsbD 2
    · exact herr
    · exact Nat.zero_le 6
  · cases v.getLsbD 1
    · exact hflags hb
    · rfl
  · cases v.getLsbD 2
    · exact hinfo
    · exact fun _ => rfl

/-- An accepted command sets BUSY as it clears DONE (R69). -/
theorem acceptCommand_inv (v : Data) {s : State} (hs : s.Inv) : (acceptCommand v s).Inv := by
  obtain ⟨htlen, hklen, herr, hflags, hinfo, htxt, hkey⟩ := hs
  rw [acceptCommand]
  split_ifs
  · exact ⟨htlen, hklen, herr, hflags, hinfo, htxt, hkey⟩
  · exact ⟨htlen, hklen, herr, fun _ => rfl, hinfo, htxt, hkey⟩

/-- A length that is taken is in range: the eight bits looked at are then the seven stored (R70). -/
theorem writeTlen_inv (v : Data) {s : State} (hs : s.Inv) : (writeTlen v s).Inv := by
  rw [writeTlen]
  split_ifs with hv
  · obtain ⟨-, hrest⟩ := hs
    refine ⟨?_, hrest⟩
    simp only [BitVec.toNat_setWidth] at hv ⊢
    omega
  · exact raiseError_inv .badVal 0x14 hs

theorem writeKlen_inv (v : Data) {s : State} (hs : s.Inv) : (writeKlen v s).Inv := by
  rw [writeKlen]
  split_ifs with hv
  · obtain ⟨htlen, -, hrest⟩ := hs
    exact ⟨htlen, hv, hrest⟩
  · exact raiseError_inv .badVal 0x18 hs

/-- The other registers a write may change are outside the invariant (R62). -/
theorem writeReg_inv (v : Data) {s : State} (hs : s.Inv) (r : PortReg) : (writeReg v s r).Inv := by
  have ⟨htlen, hklen, herr, hflags, hinfo, htxt, hkey⟩ := hs
  cases r
  case status => exact writeStatus_inv v hs
  case cmd => exact acceptCommand_inv v hs
  case tlen => exact writeTlen_inv v hs
  case klen => exact writeKlen_inv v hs
  case txt j => exact ⟨htlen, hklen, herr, hflags, hinfo, memory_write_wf htxt _ j.isLt, hkey⟩
  case key j => exact ⟨htlen, hklen, herr, hflags, hinfo, htxt, memory_write_wf hkey _ j.isLt⟩
  all_goals exact hs

theorem writeRegBusy_inv (idx : Index) (v : Data) {s : State} (hs : s.Inv) (r : PortReg) :
    (writeRegBusy idx v s r).Inv := by
  cases r
  case status => exact writeStatus_inv v hs
  case ctrl => exact hs
  all_goals exact recordError_inv .busyWr (idx.setWidth 32) hs

theorem portWrite_inv (idx : Index) (v : Data) {s : State} (hs : s.Inv) : (portWrite idx v s).Inv := by
  cases hbusy : s.busy with
  | true => rw [portWrite_busy hbusy]; exact writeRegBusy_inv idx v hs _
  | false => rw [portWrite_idle hbusy]; exact writeReg_inv v hs _

theorem reset_inv : State.reset.Inv := by decide

/-- The invariant speaks of the engine only, which is `Engine.reset` whatever the schedule (R215, log 12). -/
theorem hardReset_inv (s : State) : (hardReset s).Inv := reset_inv

theorem takeTurn_inv (turn : Turn) {s t : State} (hs : s.Inv) (h : takeTurn turn s = .next t) : t.Inv := by
  cases turn with
  | read idx => cases h; exact hs
  | write idx v => cases h; exact portWrite_inv idx v hs
  | rst => cases h; exact hardReset_inv s
  | engine => exact engineTurn_inv hs h

theorem step_inv {s t : State} (hs : s.Inv) (h : step s = .next t) : t.Inv := by
  cases hturns : s.turns with
  | nil => exact engineTurn_inv hs ((step_of_no_turns hturns).symm.trans h)
  | cons turn rest =>
    exact takeTurn_inv turn (s := { s with turns := rest }) hs ((step_of_turn hturns).symm.trans h)

/-! ## The port after reset, and the acknowledgement -/

/-- Only index 0 is ID (R22). -/
theorem regAt_ne_id {idx : Index} (h : idx ≠ 0) : regAt idx ≠ .id := by
  intro hid
  have hindex : (regAt idx).index = idx := regAt_index (by simp [hid])
  exact h (by rw [← hindex, hid]; rfl)

/-- Every register but ID reads 0 after reset, an unlisted buffer byte too (R45). -/
theorem readReg_hardReset (s : State) {r : PortReg} (h : r ≠ .id) : readReg (hardReset s) r = 0 := by
  cases r
  case id => exact absurd rfl h
  case status => exact (by decide : statusWord State.reset = 0)
  case ctrl => exact (by decide : ctrlWord State.reset = 0)
  all_goals rfl

/-- A write to STATUS is the acknowledgement, BUSY or not (R63, R67). -/
theorem portWrite_status (v : Data) (s : State) : portWrite 0x01 v s = writeStatus v s := by
  rw [portWrite]
  split <;> rfl

/-! ## The obligations -/

/-- Settles O10: the step is an engine turn or a turn of the schedule, and each keeps the invariant. -/
theorem stepKeepsTheInvariant : Obligations.StepKeepsTheInvariant := fun _ _ hs h => step_inv hs h

/-- Settles O16: neither the error action nor an effect reaches these fields. -/
theorem commandsKeepTheHostsRegisters : Obligations.CommandsKeepTheHostsRegisters := by
  intro i s t h
  rcases exec_next h with ⟨e, -, rfl⟩ | rfl
  · simp
  · obtain ⟨hcw, hopa, hope, hopm, hdone, herr, hturns, hrdata, -, -⟩ := effect_host_frame i s
    exact ⟨hcw, hopa, hope, hopm, hdone, herr, hturns, hrdata⟩

/-- Settles O17: the error action writes none of these registers, and an effect writes its own only. -/
theorem onlyTheNamedCommandsWrite : Obligations.OnlyTheNamedCommandsWrite := by
  intro i s t h
  rcases exec_next h with ⟨e, -, rfl⟩ | rfl
  · simp
  · refine ⟨effect_res s, effect_acc s, effect_vector s, fun hi => ?_, effect_rcnt s, fun hi => ?_, effect_pos s,
      effect_dpos s, effect_dout s⟩
    · obtain ⟨htxt, htlen⟩ := effect_text s hi
      exact ⟨fun j => congrArg (·.read j) htxt, htlen⟩
    · obtain ⟨hkey, hklen⟩ := effect_key s hi
      exact ⟨fun j => congrArg (·.read j) hkey, hklen⟩

/-- Settles O9: the vector is that of the value 0. -/
theorem resetMeetsTheInvariant : Obligations.ResetMeetsTheInvariant :=
  ⟨reset_inv, ⟨0, rfl, rfl, rfl⟩, fun s => ⟨hardReset_inv s, ⟨0, rfl, rfl, rfl⟩⟩⟩

/-- Settles O27: 6 has the bits that clear DONE and ERRCODE (R67), and both terms of `irq` need one of the two. -/
theorem irqIsALevelOfTheFlags : Obligations.IrqIsALevelOfTheFlags := by
  intro s
  constructor
  · simp [irq, errFlag]
  · rw [portWrite_status, writeStatus_eq]
    rfl

/-- Settles O29: the engine after reset is one constant, and ID alone reads a value that is not state. -/
theorem resetZeroesEveryComponent : Obligations.ResetZeroesEveryComponent :=
  ⟨rfl, fun s => ⟨rfl, fun _ h => readReg_hardReset s (regAt_ne_id h), rfl, rfl⟩⟩

end Sys2Proof.Machine
end

