-- ==== Sys2Proof/Proofs/Memory.lean ====
section
/-! PROOFS. The statements of spec/20_memory.md: what the port reads at every index (R61), what a write stores, drops or
refuses (R62 to R71), and that no step stops (R240). -/

namespace Sys2Proof.Machine

/-! ## Every step answers (R240) -/

/-- An idle engine waits, and a BUSY one reads within its buffers where both lengths are legal (R88, R240). -/
theorem engineTurn_answers {s : State} (htlen : s.tlen.toNat ≤ 64) (hklen : s.klen.toNat ≤ 128) :
    ∃ t, engineTurn s = .next t := by
  cases hbusy : s.busy with
  | true =>
    obtain ⟨t, ht, -⟩ := completion_answers_idle htlen hklen
    exact ⟨t, (engineTurn_busy hbusy).trans ht⟩
  | false => exact ⟨s, engineTurn_idle hbusy⟩

theorem takeTurn_answers (turn : Turn) {s : State} (htlen : s.tlen.toNat ≤ 64) (hklen : s.klen.toNat ≤ 128) :
    ∃ t, takeTurn turn s = .next t := by
  cases turn with
  | read idx => exact ⟨_, rfl⟩
  | write idx v => exact ⟨_, rfl⟩
  | rst => exact ⟨_, rfl⟩
  | engine => exact engineTurn_answers htlen hklen

theorem step_answers {s : State} (htlen : s.tlen.toNat ≤ 64) (hklen : s.klen.toNat ≤ 128) :
    ∃ t, step s = .next t := by
  cases hturns : s.turns with
  | nil => rw [step_of_no_turns hturns]; exact engineTurn_answers htlen hklen
  | cons turn rest =>
    rw [step_of_turn hturns]
    exact takeTurn_answers turn (s := { s with turns := rest }) htlen hklen

/-! ## Indices and the registers that stand there (R22) -/

/-- An index whose number is one of a list's is one of that list. -/
theorem index_mem_of_toNat_mem {idx : Index} {l : List Index} (h : idx.toNat ∈ l.map BitVec.toNat) : idx ∈ l :=
  (List.mem_map_of_injective BitVec.toNat_injective).1 h

/-- A register that has an index of its own stands at no other. -/
theorem regAt_ne {idx : Index} {r : PortReg} (hr : r ≠ .reserved) (h : idx ≠ r.index) : regAt idx ≠ r := by
  intro hreg
  have hindex : (regAt idx).index = idx := regAt_index (hreg ▸ hr)
  exact h (by rw [← hindex, hreg])

/-- The width of a register or buffer byte that takes every write with BUSY = 0, unchecked (R62, R66). -/
def PortReg.dataBits : PortReg → Option Nat
  | .opa | .ope | .opm | .pos | .dpos => some 64
  | .acc => some 40
  | .rcnt => some 32
  | .txt _ | .key _ => some 8
  | .id | .status | .ctrl | .errinfo | .cmd | .res | .v0 | .v1 | .v2 | .tlen | .klen | .dout | .reserved => none

/-- The indices of the data registers and of the buffer bytes, with their widths (R22). -/
theorem regAt_dataBits {idx : Index} {n : Nat}
    (h : (idx.toNat ∈ [0x08, 0x09, 0x0A, 0x19, 0x1A] ∧ n = 64) ∨ (idx.toNat = 0x10 ∧ n = 40) ∨
      (idx.toNat = 0x15 ∧ n = 32) ∨ (0x40 ≤ idx.toNat ∧ n = 8)) : (regAt idx).dataBits = some n := by
  rcases h with ⟨hidx, rfl⟩ | ⟨hidx, rfl⟩ | ⟨hidx, rfl⟩ | ⟨hidx, rfl⟩
  · have hmem := index_mem_of_toNat_mem (l := [0x08, 0x09, 0x0A, 0x19, 0x1A]) hidx
    simp only [List.mem_cons, List.not_mem_nil, or_false] at hmem
    rcases hmem with rfl | rfl | rfl | rfl | rfl <;> rfl
  · cases (BitVec.eq_of_toNat_eq hidx : idx = 0x10#8); rfl
  · cases (BitVec.eq_of_toNat_eq hidx : idx = 0x15#8); rfl
  · rw [regAt]
    split_ifs
    · rfl
    · rfl

/-! ## Reads (R61) -/

/-- STATUS as a number: the flags in bits 0 to 2, ERRCODE in bits 11:8 (R25). -/
theorem statusWord_toNat (s : State) : (statusWord s).toNat =
    s.busy.toNat + 2 * s.done.toNat + 4 * (if s.errcode = 0 then 0 else 1) + 256 * s.errcode.toNat := by
  have h : ∀ (b d : Bool) (e : BitVec 4),
      (flagData b ||| (flagData d <<< 1) ||| (flagData (e != 0) <<< 2) ||| (e.setWidth 64 <<< 8)).toNat =
        b.toNat + 2 * d.toNat + 4 * (if e = 0 then 0 else 1) + 256 * e.toNat := by decide
  exact h s.busy s.done s.errcode

/-- CTRL as a number: the enables in bits 0 and 1 (R26). -/
theorem ctrlWord_toNat (s : State) : (ctrlWord s).toNat = s.ieDone.toNat + 2 * s.ieErr.toNat := by
  have h : ∀ d e : Bool, (flagData d ||| (flagData e <<< 1)).toNat = d.toNat + 2 * e.toNat := by decide
  exact h s.ieDone s.ieErr

theorem portRead_txt (s : State) {j : Nat} (hj : j < 64) :
    portRead (BitVec.ofNat 8 (0x40 + j)) s = (s.txt.read j).setWidth 64 := by
  rw [portRead, regAt_txt hj, readReg]

theorem portRead_key (s : State) {j : Nat} (hj : j < 128) :
    portRead (BitVec.ofNat 8 (0x80 + j)) s = (s.key.read j).setWidth 64 := by
  rw [portRead, regAt_key hj, readReg]

/-- A reserved index reads 0 (R64). -/
theorem portRead_reserved {idx : Index} (h : regAt idx = .reserved) (s : State) : portRead idx s = 0 := by
  rw [portRead, h, readReg]

/-! ## Writes with BUSY = 0 (R62) -/

/-- The low `n` bits of a datum (R66). -/
theorem setWidth_eq_ofNat_mod (v : Data) (n : Nat) : v.setWidth n = BitVec.ofNat n (v.toNat % 2 ^ n) := by
  apply BitVec.eq_of_toNat_eq
  rw [BitVec.toNat_setWidth, BitVec.toNat_ofNat, Nat.mod_mod]

section Isolation
variable {r : PortReg} {n : Nat} {s : State} (v : Data)

/-- A data register or buffer byte reads back the low bits of what is written there (R66). -/
theorem readReg_writeReg_same (hr : r.dataBits = some n) (htxt : s.txt.wf 64 = true) (hkey : s.key.wf 128 = true) :
    (readReg (writeReg v s r) r).toNat = v.toNat % 2 ^ n := by
  cases r <;> cases hr
  case opa | ope | opm | pos | dpos => exact (Nat.mod_eq_of_lt v.isLt).symm
  case acc | rcnt =>
    rw [readReg, BitVec.toNat_setWidth_of_le (by decide)]
    exact BitVec.toNat_setWidth ..
  case txt j =>
    rw [readReg, BitVec.toNat_setWidth_of_le (by decide), writeReg, memory_read_write htxt, if_pos rfl,
      BitVec.toNat_setWidth]
  case key j =>
    rw [readReg, BitVec.toNat_setWidth_of_le (by decide), writeReg, memory_read_write hkey, if_pos rfl,
      BitVec.toNat_setWidth]

/-- A write to a data register or buffer byte is read nowhere else (R62, R71). -/
theorem readReg_writeReg_of_ne {r' : PortReg} (hr : r.dataBits = some n) (hne : r' ≠ r) (htxt : s.txt.wf 64 = true)
    (hkey : s.key.wf 128 = true) : readReg (writeReg v s r) r' = readReg s r' := by
  cases r <;> cases hr
  case txt j =>
    cases r'
    case txt k =>
      have hkj : k.val ≠ j.val := fun h => hne (congrArg PortReg.txt (Fin.ext h))
      rw [readReg, readReg, writeReg, memory_read_write htxt, if_neg hkj]
    all_goals rfl
  case key j =>
    cases r'
    case key k =>
      have hkj : k.val ≠ j.val := fun h => hne (congrArg PortReg.key (Fin.ext h))
      rw [readReg, readReg, writeReg, memory_read_write hkey, if_neg hkj]
    all_goals rfl
  case opa | ope | opm | acc | rcnt | pos | dpos =>
    cases r' <;> try rfl
    -- left is `r' = r` alone
    exact absurd rfl hne

end Isolation

theorem portWrite_txt {s : State} (hbusy : s.busy = false) (v : Data) {j : Nat} (hj : j < 64) :
    portWrite (BitVec.ofNat 8 (0x40 + j)) v s = { s with txt := s.txt.write j (v.setWidth 8) } := by
  rw [portWrite_idle hbusy, regAt_txt hj, writeReg]

theorem portWrite_key {s : State} (hbusy : s.busy = false) (v : Data) {j : Nat} (hj : j < 128) :
    portWrite (BitVec.ofNat 8 (0x80 + j)) v s = { s with key := s.key.write j (v.setWidth 8) } := by
  rw [portWrite_idle hbusy, regAt_key hj, writeReg]

/-- A reserved index ignores a write (R64). -/
theorem portWrite_reserved {idx : Index} (h : regAt idx = .reserved) {s : State} (hbusy : s.busy = false) (v : Data) :
    portWrite idx v s = s := by
  rw [portWrite_idle hbusy, h, writeReg]

/-- ID, ERRINFO, RES, V0, V1, V2 and DOUT ignore a write (R65). -/
theorem portWrite_readOnly {idx : Index} (h : idx.toNat ∈ [0x00, 0x03, 0x0B, 0x11, 0x12, 0x13, 0x1B]) {s : State}
    (hbusy : s.busy = false) (v : Data) : portWrite idx v s = s := by
  have hmem := index_mem_of_toNat_mem (l := [0x00, 0x03, 0x0B, 0x11, 0x12, 0x13, 0x1B]) h
  simp only [List.mem_cons, List.not_mem_nil, or_false] at hmem
  rw [portWrite_idle hbusy]
  rcases hmem with rfl | rfl | rfl | rfl | rfl | rfl | rfl <;> rfl

/-- With BUSY = 0 the error action changes nothing but the error record (R188). -/
theorem raiseError_idle {s : State} (hbusy : s.busy = false) (e : ErrorCode) (w : BitVec 32) :
    raiseError e w s =
      { s with errcode := if s.errcode = 0 then e.code else s.errcode,
               errinfo := if s.errcode = 0 then w else s.errinfo } := by
  rw [raiseError_eq, ← hbusy]

/-- The eight bits that the length check looks at (R70). -/
theorem toNat_lowByte (v : Data) : (v.setWidth 8).toNat = v.toNat % 256 := BitVec.toNat_setWidth ..

theorem writeTlen_of_le {v : Data} (h : v.toNat % 256 ≤ 64) (s : State) :
    writeTlen v s = { s with tlen := v.setWidth 7 } := if_pos ((toNat_lowByte v).trans_le h)

theorem writeTlen_of_gt {v : Data} (h : 64 < v.toNat % 256) (s : State) :
    writeTlen v s = raiseError .badVal 0x14 s := if_neg (Nat.not_le.2 (h.trans_eq (toNat_lowByte v).symm))

theorem writeKlen_of_le {v : Data} (h : v.toNat % 256 ≤ 128) (s : State) :
    writeKlen v s = { s with klen := v.setWidth 8 } := if_pos ((toNat_lowByte v).trans_le h)

theorem writeKlen_of_gt {v : Data} (h : 128 < v.toNat % 256) (s : State) :
    writeKlen v s = raiseError .badVal 0x18 s := if_neg (Nat.not_le.2 (h.trans_eq (toNat_lowByte v).symm))

/-! ## Writes with BUSY = 1, and writes to CTRL (R63, R68) -/

/-- A write to CTRL sets the enables, BUSY or not (R63, R68). -/
theorem portWrite_ctrl (v : Data) (s : State) :
    portWrite 0x02 v s = { s with ieDone := v.getLsbD 0, ieErr := v.getLsbD 1 } := by
  rw [portWrite]
  split <;> rfl

/-- With BUSY = 1 a write that is not to STATUS or CTRL is dropped with E_BUSYWR (R63). -/
theorem portWrite_dropped {s : State} (hbusy : s.busy = true) {idx : Index} (hstatus : idx ≠ 0x01) (hctrl : idx ≠ 0x02)
    (v : Data) : portWrite idx v s = raiseBusyWrite idx s := by
  have hstatus' : regAt idx ≠ .status := regAt_ne (by simp) hstatus
  have hctrl' : regAt idx ≠ .ctrl := regAt_ne (by simp) hctrl
  rw [portWrite_busy hbusy]
  generalize regAt idx = r at hstatus' hctrl'
  cases r
  case status => exact absurd rfl hstatus'
  case ctrl => exact absurd rfl hctrl'
  all_goals rfl

/-! ## The obligations -/

/-- Settles O12: the lengths of the invariant let every turn answer, and every step keeps the invariant. -/
theorem stepNeverStopsFromTheInvariant : Obligations.StepNeverStopsFromTheInvariant := by
  intro s hs
  have ⟨htlen, hklen, _⟩ := hs
  obtain ⟨t, ht⟩ := step_answers htlen hklen
  exact ⟨t, ht, step_inv hs ht⟩

/-- Settles O20: the index names a data register or a buffer byte, and no other index names the same one. -/
theorem writeIsReadBackAndIsolated : Obligations.WriteIsReadBackAndIsolated := by
  intro s idx v n hbusy htxt hkey hidx
  have hbits : (regAt idx).dataBits = some n := regAt_dataBits hidx
  have hres : regAt idx ≠ .reserved := fun h => by simp [h, PortReg.dataBits] at hbits
  rw [portWrite_idle hbusy]
  exact ⟨readReg_writeReg_same v hbits htxt hkey, fun idx' hne =>
    readReg_writeReg_of_ne v hbits (fun h => hne (regAt_injective hres h.symm).symm) htxt hkey⟩

/-- Settles O18: each named index by its own register, the buffers and the reserved indices by their ranges. -/
theorem portReadReturnsTheRegisterMap : Obligations.PortReadReturnsTheRegisterMap := by
  intro s
  have ext {n : Nat} (x : BitVec n) (hn : n ≤ 64) : (x.setWidth 64 : Data).toNat = x.toNat :=
    BitVec.toNat_setWidth_of_le hn
  refine ⟨rfl, statusWord_toNat s, ctrlWord_toNat s, ext s.errinfo (by decide), ext s.cw (by decide), rfl, rfl, rfl, rfl,
    ext s.acc (by decide), ext s.v0 (by decide), ext s.v1 (by decide), ext s.v2 (by decide), ext s.tlen (by decide),
    ext s.rcnt (by decide), ext s.klen (by decide), rfl, rfl, ext s.dout (by decide), fun j hj => ?_, fun j hj => ?_,
    fun idx h => portRead_reserved (regAt_reserved h) s⟩
  · rw [portRead_txt s hj, ext _ (by decide)]
  · rw [portRead_key s hj, ext _ (by decide)]

/-- Settles O19: each index names its register, and a narrow one takes the low bits. -/
theorem idleWriteStoresTheLowBits : Obligations.IdleWriteStoresTheLowBits := by
  intro s v hbusy
  simp only [← setWidth_eq_ofNat_mod]
  exact ⟨portWrite_idle hbusy _ v, portWrite_idle hbusy _ v, portWrite_idle hbusy _ v, portWrite_idle hbusy _ v,
    portWrite_idle hbusy _ v, portWrite_idle hbusy _ v, portWrite_idle hbusy _ v, fun _ => portWrite_txt hbusy v,
    fun _ => portWrite_key hbusy v⟩

/-- Settles O21: a reserved index has no register behind it, and a write to a read-only one is no store. -/
theorem reservedAndReadOnlyIndicesIgnoreWrites : Obligations.ReservedAndReadOnlyIndicesIgnoreWrites :=
  fun s _ v => ⟨fun h =>
      have hreg := regAt_reserved h
      ⟨portRead_reserved hreg s, fun hbusy => portWrite_reserved hreg hbusy v⟩,
    fun h hbusy => portWrite_readOnly h hbusy v⟩

/-- Settles O22: STATUS and CTRL are written as ever, and every other index is dropped. -/
theorem writeWhileBusyIsDropped : Obligations.WriteWhileBusyIsDropped := by
  intro s idx v hbusy
  refine ⟨?_, ?_, fun hstatus hctrl => ?_⟩
  · rintro rfl
    rw [portWrite_status, writeStatus_eq]
  · rintro rfl
    exact portWrite_ctrl v s
  · rw [portWrite_dropped hbusy hstatus hctrl, raiseBusyWrite_eq, BitVec.ofNat_toNat]

/-- Settles O23: neither write looks at BUSY. -/
theorem statusAndCtrlWritesWorkAtAnyTime : Obligations.StatusAndCtrlWritesWorkAtAnyTime :=
  fun s v => ⟨(portWrite_status v s).trans (writeStatus_eq v s), portWrite_ctrl v s⟩

/-- Settles O24: BUSY is looked at first, then the pending error; the word is latched as it is. -/
theorem cmdWriteIsDroppedRefusedOrAccepted : Obligations.CmdWriteIsDroppedRefusedOrAccepted := by
  intro s v
  refine ⟨fun hbusy => ?_, fun hbusy herr => ?_, fun hbusy herr => ?_⟩
  · rw [portWrite_dropped hbusy (by decide) (by decide), raiseBusyWrite_eq]
    rfl
  · exact (portWrite_idle hbusy 0x04 v).trans (if_pos herr)
  · rw [← setWidth_eq_ofNat_mod]
    exact (portWrite_idle hbusy 0x04 v).trans (if_neg (not_not_intro herr))

/-- Settles O25: the check is on the low eight bits, and of a length up to 64 the low seven are all. -/
theorem lengthWritesAreChecked : Obligations.LengthWritesAreChecked := by
  intro s v hbusy
  have htlen : portWrite 0x14 v s = writeTlen v s := portWrite_idle hbusy _ v
  have hklen : portWrite 0x18 v s = writeKlen v s := portWrite_idle hbusy _ v
  refine ⟨fun h => ⟨_, htlen.trans (writeTlen_of_le h s), rfl, ?_⟩, fun h => ?_,
    fun h => ⟨_, hklen.trans (writeKlen_of_le h s), rfl, toNat_lowByte v⟩, fun h => ?_⟩
  · rw [BitVec.toNat_setWidth]
    omega
  · rw [htlen, writeTlen_of_gt h, raiseError_idle hbusy]
    rfl
  · rw [hklen, writeKlen_of_gt h, raiseError_idle hbusy]
    rfl

end Sys2Proof.Machine
end

