-- ==== Sys2Proof/Proofs/Encoding.lean ====
section
/-! PROOFS. The statements of spec/30_encoding.md: decoder, encoder and assembler agree (R80 to R86), and the completion
of the latched word (R84, R88, R89). -/

namespace Sys2Proof

/-! ## Every command's operand -/

theorem operandFits (i : Instr) : Laws.OperandFits.Statement i := by
  cases i with
  | nop => exact Laws.OperandFits.nop
  | modpow => exact Laws.OperandFits.modpow
  | hinit => exact Laws.OperandFits.hinit
  | habs code => exact Laws.OperandFits.habs code
  | hfeed => exact Laws.OperandFits.hfeed
  | hexp => exact Laws.OperandFits.hexp
  | hmix => exact Laws.OperandFits.hmix
  | hmat => exact Laws.OperandFits.hmat
  | hstr => exact Laws.OperandFits.hstr
  | hfin => exact Laws.OperandFits.hfin
  | rounds n => exact Laws.OperandFits.rounds n
  | derive => exact Laws.OperandFits.derive
  | kload => exact Laws.OperandFits.kload
  | sstart => exact Laws.OperandFits.sstart
  | sbit b => exact Laws.OperandFits.sbit b
  | sxor x => exact Laws.OperandFits.sxor x
  | schk => exact Laws.OperandFits.schk
  | dstart => exact Laws.OperandFits.dstart
  | dbit b => exact Laws.OperandFits.dbit b
  | dxor x => exact Laws.OperandFits.dxor x

theorem Instr.wellFormed (i : Instr) : i.WellFormed = true := (operandFits i).1

/-- When a line assembles, and to which command (R86). -/
theorem assemble_eq_some_iff {m : Mnemonic} {n : Nat} {i : Instr} :
    assemble ⟨m, n⟩ = some i ↔ n < 2 ^ m.format.operandBits ∧ m.instr (BitVec.ofNat 16 n) = i := by
  have hwf : AsmLine.WellFormed ⟨m, n⟩ = true ↔ n < 2 ^ m.format.operandBits := Format.admits_iff
  rw [assemble]
  split_ifs with h
  · simp [← hwf, h]
  · simp [← hwf, h]

/-- A command is its mnemonic and its immediate field (R82). -/
theorem Instr.instr_mnemonic_imm (i : Instr) : i.mnemonic.instr i.imm = i :=
  (assemble_eq_some_iff.1 (operandFits i).2).2

/-! ## The decoder, field by field -/

/-- A word decodes to `i` exactly when its fields are those of `i` and `z` is 0 (R83, R84). -/
theorem decode_ok_iff {w : CmdWord} {i : Instr} :
    decode w = .ok i ↔ opField w = i.mnemonic.op ∧ zField w = 0 ∧ immField w = i.imm := by
  constructor
  · intro h
    obtain ⟨m, hop, hz, himm, rfl⟩ := decode_ok h
    exact ⟨by rw [hop, Mnemonic.instr_mnemonic], hz, (Mnemonic.instr_imm himm).symm⟩
  · rintro ⟨hop, hz, himm⟩
    have hfits : i.mnemonic.format.admits (immField w).toNat = true := by
      rw [himm, Instr.imm_toNat]
      exact i.wellFormed
    rw [decode_of_fields hop hz hfits, himm, Instr.instr_mnemonic_imm]

/-- A word decodes to a command of mnemonic `m` exactly when its opcode is that of `m`, `z` is 0 and `imm` is an operand
of its format (R83, R84). -/
theorem exists_decode_mnemonic_iff {m : Mnemonic} {w : CmdWord} :
    (∃ i : Instr, i.mnemonic = m ∧ decode w = .ok i) ↔
      opField w = m.op ∧ zField w = 0 ∧ (immField w).toNat < 2 ^ m.format.operandBits := by
  rw [← Format.admits_iff]
  constructor
  · rintro ⟨i, rfl, h⟩
    obtain ⟨hop, hz, himm⟩ := decode_ok_iff.1 h
    exact ⟨hop, hz, by rw [himm, Instr.imm_toNat]; exact i.wellFormed⟩
  · rintro ⟨hop, hz, himm⟩
    exact ⟨_, Mnemonic.instr_mnemonic m _, decode_of_fields hop hz himm⟩

/-! ## Mask and match -/

/-- The mask keeps all but the operand bits (R83). -/
theorem Mnemonic.mask_eq_shiftLeft (m : Mnemonic) : m.mask = BitVec.allOnes 32 <<< m.format.operandBits := by
  cases m <;> rfl

theorem and_mask_toNat (w : CmdWord) (m : Mnemonic) :
    (w &&& m.mask).toNat = w.toNat / 2 ^ m.format.operandBits * 2 ^ m.format.operandBits := by
  have hw := w.isLt
  have hle := Nat.div_mul_le_self w.toNat (2 ^ m.format.operandBits)
  rw [m.mask_eq_shiftLeft, ← BitVec.shiftLeft_ushiftRight, BitVec.toNat_shiftLeft, BitVec.toNat_ushiftRight,
    Nat.shiftRight_eq_div_pow, Nat.shiftLeft_eq, Nat.mod_eq_of_lt (by omega)]

/-- A word is selected by a row of R83 exactly when its opcode is the row's and everything above the operand is 0. -/
theorem and_mask_eq_matchWord_iff {m : Mnemonic} {w : CmdWord} :
    w &&& m.mask = m.matchWord ↔
      opField w = m.op ∧ zField w = 0 ∧ (immField w).toNat < 2 ^ m.format.operandBits := by
  rw [← BitVec.toNat_inj, and_mask_toNat, Mnemonic.matchWord, wordOf_toNat, ← BitVec.toNat_inj, opField_toNat,
    ← BitVec.toNat_inj, zField_toNat, immField_toNat]
  -- the two zero fields, as numbers
  change _ = _ + 0 ↔ _ ∧ _ = 0 ∧ _
  cases m.format <;> simp only [Format.operandBits] <;> omega

/-! ## Legal words, by format -/

/-- The opcodes of the commands of one format (R83). -/
def Format.opcodes (f : Format) : List (BitVec 8) := (Mnemonic.all.filter (·.format == f)).map Mnemonic.op

theorem Mnemonic.mem_all (m : Mnemonic) : m ∈ Mnemonic.all := by cases m <;> decide

theorem Format.mem_opcodes_iff {f : Format} {op : BitVec 8} :
    op ∈ f.opcodes ↔ ∃ m : Mnemonic, m.format = f ∧ m.op = op := by
  simp [Format.opcodes, Mnemonic.mem_all]

/-- A word decodes exactly when `z` is 0 and, for the format of its opcode, `imm` is an operand (R84). -/
theorem exists_decode_iff {w : CmdWord} :
    (∃ i, decode w = .ok i) ↔
      zField w = 0 ∧ ∃ f : Format, opField w ∈ f.opcodes ∧ (immField w).toNat < 2 ^ f.operandBits := by
  constructor
  · rintro ⟨i, h⟩
    obtain ⟨hop, hz, himm⟩ := exists_decode_mnemonic_iff.1 ⟨i, rfl, h⟩
    exact ⟨hz, i.mnemonic.format, Format.mem_opcodes_iff.2 ⟨i.mnemonic, rfl, hop.symm⟩, himm⟩
  · rintro ⟨hz, f, hmem, himm⟩
    obtain ⟨m, rfl, hop⟩ := Format.mem_opcodes_iff.1 hmem
    obtain ⟨i, -, h⟩ := exists_decode_mnemonic_iff.2 ⟨hop.symm, hz, himm⟩
    exact ⟨i, h⟩

theorem Format.exists_iff {p : Format → Prop} : (∃ f, p f) ↔ p .z ∨ p .i1 ∨ p .i8 ∨ p .i16 := by
  constructor
  · rintro ⟨f, h⟩
    cases f <;> simp [h]
  · rintro (h | h | h | h) <;> exact ⟨_, h⟩

/-- `op` in a list of R84's formula, as a number. -/
theorem opNumber_mem_iff {w : CmdWord} {l : List (BitVec 8)} :
    (w >>> 24).toNat ∈ l.map BitVec.toNat ↔ opField w ∈ l := by
  have hop : (w >>> 24).toNat = (opField w).toNat := by
    rw [opField_toNat, BitVec.toNat_ushiftRight, Nat.shiftRight_eq_div_pow]
  rw [hop, List.mem_map_of_injective BitVec.toNat_injective]

theorem zBits_eq_zero_iff {w : CmdWord} : (w >>> 16) &&& 0xFF#32 = 0#32 ↔ zField w = 0 := by
  rw [← BitVec.toNat_inj, ← BitVec.toNat_inj, zField_toNat, BitVec.toNat_and, BitVec.toNat_ushiftRight,
    Nat.shiftRight_eq_div_pow]
  exact (Nat.and_two_pow_sub_one_eq_mod _ 8).congr_left

/-- A field of the word from bit `k` to bit 15 is 0 exactly when `imm` is below `2 ^ k` (R80). -/
theorem highImm_eq_zero_iff {w : CmdWord} {k n : Nat} (h : k + n = 16) :
    w.extractLsb' k n = 0 ↔ (immField w).toNat < 2 ^ k := by
  rw [← BitVec.toNat_inj, BitVec.extractLsb'_toNat, immField_toNat, ← h, Nat.pow_add,
    ← Nat.div_eq_zero_iff_lt (by simp), Nat.mod_mul_right_div_self, Nat.shiftRight_eq_div_pow]
  rfl

/-- `legal` is R84's formula, its four cases the four formats. -/
theorem legal_iff {w : CmdWord} : legal w = true ↔ ∃ i, decode w = .ok i := by
  rw [exists_decode_iff, Format.exists_iff]
  simp only [legal, Bool.and_eq_true, Bool.or_eq_true, beq_iff_eq, List.contains_iff_mem, or_assoc]
  refine and_congr_right fun _ => or_congr (and_congr_right fun _ => ?_) (or_congr (and_congr_right fun _ => ?_)
    (or_congr (and_congr_right fun _ => ?_) ?_))
  · exact highImm_eq_zero_iff (k := 0) rfl
  · exact highImm_eq_zero_iff rfl
  · exact highImm_eq_zero_iff rfl
  · exact (and_iff_left (immField w).isLt).symm

end Sys2Proof

namespace Sys2Proof.Machine

/-! ## The completion of the latched word -/

theorem completion_of_decode {s : State} {i : Instr} (h : decode s.cw = .ok i) : completion s = exec i s := by
  simp only [completion, h]

theorem engineTurn_of_decode {s : State} {i : Instr} (hbusy : s.busy = true) (h : decode s.cw = .ok i) :
    engineTurn s = exec i s := (engineTurn_busy hbusy).trans (completion_of_decode h)

/-- A latched word that is no command raises E_ILLCMD with the word (R84, R88). -/
theorem completion_of_illegal {s : State} (h : legal s.cw = false) :
    completion s = .next (raiseError .illCmd s.cw s) := by
  have hno : ¬ ∃ i, decode s.cw = .ok i := fun hi => by simp [legal_iff.2 hi] at h
  rw [completion]
  split
  · rfl
  · exact absurd ⟨_, ‹_›⟩ hno

/-- Which command raises which code, and when: R186's table, read off `ownError`. -/
theorem ownError_code {i : Instr} {e : ErrorCode} {s : State} (h : ownError i e s) :
    (e.code = 2 ∧ i.mnemonic = .modpow ∧ s.opm = 0) ∨
    (e.code = 3 ∧ i.mnemonic ∈ [.sbit, .sxor, .dbit, .dxor] ∧ s.klen = 0) ∨
    (e.code = 4 ∧ i.mnemonic = .schk ∧ s.pos.toNat % 8 ≠ 0) := by
  rw [ownError.eq_def] at h
  split at h
  · exact .inl ⟨rfl, rfl, h⟩
  · exact .inr (.inl ⟨rfl, by simp [Instr.mnemonic], h⟩)
  · exact .inr (.inl ⟨rfl, by simp [Instr.mnemonic], h⟩)
  · exact .inr (.inl ⟨rfl, by simp [Instr.mnemonic], h⟩)
  · exact .inr (.inl ⟨rfl, by simp [Instr.mnemonic], h⟩)
  · exact .inr (.inr ⟨rfl, rfl, h⟩)
  · exact h.elim

/-! ## The obligations -/

/-- Settles O1: the fields of the encoder's word are those of the command. -/
theorem decodeInvertsEncode : Obligations.DecodeInvertsEncode :=
  fun _ _ => decode_ok_iff.2 ⟨opField_wordOf _ _, zField_wordOf _ _, immField_wordOf _ _⟩

/-- Settles O2: the word decoded and the encoder's word have the same three fields. -/
theorem encodeInvertsDecode : Obligations.EncodeInvertsDecode := by
  intro w i h
  obtain ⟨hop, hz, himm⟩ := decode_ok_iff.1 h
  refine ⟨i.wellFormed, word_ext ?_ ?_ ?_⟩
  · rw [encode, opField_wordOf, hop]
  · rw [encode, zField_wordOf, hz]
  · rw [encode, immField_wordOf, himm]

/-- Settles O3: the formula's four cases are the four formats, in the decoder and in `legal`. -/
theorem exactlyTheLegalWordsAreCommands : Obligations.ExactlyTheLegalWordsAreCommands := by
  intro w
  refine ⟨?_, legal_iff, fun hlegal s hcw => ?_⟩
  · rw [exists_decode_iff, Format.exists_iff, zBits_eq_zero_iff, ← immField_toNat]
    refine and_congr_right fun _ => or_congr (and_congr opNumber_mem_iff.symm Nat.lt_one_iff)
      (or_congr (and_congr opNumber_mem_iff.symm (Nat.div_eq_zero_iff_lt (by decide)).symm)
        (or_congr (and_congr opNumber_mem_iff.symm (Nat.div_eq_zero_iff_lt (by decide)).symm) ?_))
    exact (and_iff_left (immField w).isLt).trans opNumber_mem_iff.symm
  · subst hcw
    rw [completion_of_illegal hlegal, raiseError_eq]
    rfl

/-- Settles O4: mask and match ask of the fields what the decoder asks, and the opcode names the row. -/
theorem matchAndMaskSelectTheCommand : Obligations.MatchAndMaskSelectTheCommand := by
  refine ⟨fun m w => and_mask_eq_matchWord_iff.trans exists_decode_mnemonic_iff.symm, fun m n w hm hn => ?_⟩
  obtain ⟨hopm, -⟩ := and_mask_eq_matchWord_iff.1 hm
  obtain ⟨hopn, -⟩ := and_mask_eq_matchWord_iff.1 hn
  exact Mnemonic.op_injective (hopm.symm.trans hopn)

/-- Settles O6: an operand in range is the command's whole immediate field. -/
theorem assemblerChecksTheOperandRange : Obligations.AssemblerChecksTheOperandRange := by
  intro m n
  refine ⟨by simp [assemble_eq_some_iff], fun i h => ?_⟩
  obtain ⟨hn, rfl⟩ := assemble_eq_some_iff.1 h
  have hn16 : (BitVec.ofNat 16 n).toNat = n :=
    Nat.mod_eq_of_lt (hn.trans_le (Nat.pow_le_pow_right (by decide) (by cases m <;> decide)))
  have himm : (m.instr (BitVec.ofNat 16 n)).imm = BitVec.ofNat 16 n :=
    Mnemonic.instr_imm (Format.admits_iff.2 (by rwa [hn16]))
  rw [encode, wordOf_toNat, himm, Mnemonic.instr_mnemonic, hn16]

/-- Settles O14: the command's effect spares the error record, and its own error spares the rest. -/
theorem commandsAreAllOrNothing : Obligations.CommandsAreAllOrNothing := by
  intro i s t h
  refine ⟨exec_next_busy h, ?_⟩
  rcases exec_next h with ⟨e, hown, rfl⟩ | rfl
  · right
    have hcode := raiseError_errcode e s.cw s
    have hinfo := raiseError_errinfo e s.cw s
    refine ⟨?_, fun hpending => ?_, fun hnone => ?_⟩
    · rw [hcode, hinfo, raiseError_eq]
    · rw [hcode, hinfo, if_neg hpending, if_neg hpending]
      exact ⟨rfl, rfl⟩
    · rw [hcode, hinfo, if_pos hnone, if_pos hnone]
      exact ⟨rfl, ownError_code hown⟩
  · left
    obtain ⟨-, -, -, -, -, -, -, -, hcode, hinfo⟩ := effect_host_frame i s
    exact ⟨complete_done _, (complete_errcode _).trans hcode, (complete_errinfo _).trans hinfo⟩

/-- Settles O7: the engine's turn is the completion, which runs the decoded command. -/
theorem stepRunsTheLatchedCommand : Obligations.StepRunsTheLatchedCommand := by
  intro s i hbusy hdecode
  refine ⟨fun hturns => ?_, fun rest hturns => ?_⟩
  · exact (step_of_no_turns hturns).trans (engineTurn_of_decode hbusy hdecode)
  · exact (step_of_turn hturns).trans (engineTurn_of_decode (s := { s with turns := rest }) hbusy hdecode)

/-- Settles O5: each legal word is the encoder's word of its command, and each illegal one fails one check of R84. -/
theorem wordsWorkedBitByBitDecode : Obligations.WordsWorkedBitByBitDecode :=
  have hdec (i : Instr) : decode (encode i) = .ok i := decodeInvertsEncode i i.wellFormed
  ⟨hdec .modpow, hdec (.habs 0x53), hdec (.habs 0x20AC), hdec (.rounds 19999), hdec (.rounds 20000),
    hdec (.rounds 65535), hdec .derive, hdec (.sbit 1), hdec (.sxor 0x48), hdec .schk, hdec (.dbit 0),
    hdec (.dxor 0xFF), rfl, rfl, rfl⟩

end Sys2Proof.Machine
end

section
/-! PROOFS. The statement of spec/40_system.md about NOP: it has no effect of its own, so what remains is the success
action (R89, R100). -/

namespace Sys2Proof.Machine

/-- NOP completes in every state, without an effect of its own (R100). -/
theorem exec_nop (s : State) : exec .nop s = .next (complete s) := rfl

/-- Settles O30: `complete` writes BUSY and DONE alone, and NOP is the opcode 0 without an operand. -/
theorem nopOnlyCompletes : Obligations.NopOnlyCompletes := by
  refine ⟨?_, fun s => ?_⟩
  · decide
  · rw [exec_nop, complete]

end Sys2Proof.Machine
end

section
/-! PROOFS. The statements of spec/41_modexp.md: square-and-multiply is the power function (R105, R107), the laws it
therefore has (R108), and MODPOW as a command (R106). -/

namespace Sys2Proof.Machine

/-! ## The function -/

/-- For `m = 1` both sides are 0, so the power function needs no special case (R105). -/
theorem modpow_eq_pow_mod {m : Nat} (b e : Nat) (hm : 1 ≤ m) : modpow b e m = b ^ e % m := by
  have hlt : modpow b e m < m := modpow_lt b e hm
  by_cases h1 : m = 1
  · subst h1
    rw [Nat.mod_one]
    omega
  · calc modpow b e m
        = modpow b e m % m := (Nat.mod_eq_of_lt hlt).symm
      _ = modpowLoop m (e.log2 + 1) 1 (b % m) e % m := by rw [modpow, if_neg h1]
      _ = 1 * (b % m) ^ e % m := modpowLoop_mod m _ _ _ _ Nat.lt_log2_self
      _ = b ^ e % m := by rw [one_mul, ← Nat.pow_mod]

theorem modpow_one (b e : Nat) : modpow b e 1 = 0 := if_pos rfl

/-- The case split of R105. -/
theorem modpow_eq_ite {m : Nat} (b e : Nat) (hm : 1 ≤ m) : modpow b e m = if m = 1 then 0 else b ^ e % m := by
  split_ifs with h1
  · rw [h1, modpow_one]
  · exact modpow_eq_pow_mod b e hm

/-! ## The laws of R108 -/

section Laws

variable {m : Nat} (b e e₁ e₂ : Nat) (hm : 1 ≤ m)
include hm

theorem modpow_mod_base : modpow (b % m) e m = modpow b e m := by
  rw [modpow_eq_pow_mod _ _ hm, modpow_eq_pow_mod _ _ hm, ← Nat.pow_mod]

theorem modpow_add : modpow b (e₁ + e₂) m = modpow b e₁ m * modpow b e₂ m % m := by
  rw [modpow_eq_pow_mod _ _ hm, modpow_eq_pow_mod _ _ hm, modpow_eq_pow_mod _ _ hm, pow_add, Nat.mul_mod]

theorem modpow_two_mul : modpow b (2 * e) m = modpow (b * b % m) e m := by
  rw [modpow_mod_base _ _ hm, modpow_eq_pow_mod _ _ hm, modpow_eq_pow_mod _ _ hm, pow_mul, pow_two]

theorem modpow_succ : modpow b (e + 1) m = b * modpow b e m % m := by
  rw [modpow_eq_pow_mod _ _ hm, modpow_eq_pow_mod _ _ hm, pow_succ', Nat.mul_mod_mod]

end Laws

/-! ## The command -/

/-- The power fits RES, as it is below the 64-bit modulus (R109). -/
theorem modpow_toNat_ofNat {m : BitVec 64} (b e : Nat) (hm : 1 ≤ m.toNat) :
    (BitVec.ofNat 64 (modpow b e m.toNat)).toNat = modpow b e m.toNat := by
  rw [BitVec.toNat_ofNat]
  exact Nat.mod_eq_of_lt ((modpow_lt b e hm).trans m.isLt)

theorem exec_modpow_of_ne {s : State} (h : s.opm ≠ 0) :
    exec .modpow s = .next (complete (effect .modpow s)) :=
  congrArg Host.Outcome.next (completeUnless_good h _ _ _)

/-- With OPM = 0 the command raises E_MODZERO with its own word (R106). -/
theorem exec_modpow_of_eq {s : State} (h : s.opm = 0) : exec .modpow s = .next (raiseError .modZero s.cw s) :=
  congrArg Host.Outcome.next (completeUnless_bad h _ _ _)

/-! ## The obligations -/

/-- Settles O32: the loop computes the power modulo `m`, as it has a turn for every bit of the exponent. -/
theorem modpowIsThePowerFunction : Obligations.ModpowIsThePowerFunction := fun b e _ hm => modpow_eq_ite b e hm

/-- Settles O33: the laws are those of powers; an odd exponent is a squaring and one multiplication. -/
theorem modpowLaws : Obligations.ModpowLaws := by
  refine ⟨fun b e m hm => ?_, fun b e₁ e₂ m hm => modpow_add b e₁ e₂ hm.le, modpow_one⟩
  have hsquare : modpow b (2 * e) m = modpow (b * b % m) e m := modpow_two_mul b e hm.le
  have hodd : modpow b (2 * e + 1) m = b * modpow (b * b % m) e m % m := by rw [modpow_succ _ _ hm.le, hsquare]
  exact ⟨modpow_lt b e hm.le, (modpow_mod_base b e hm.le).symm, hsquare, hodd⟩

/-- Settles O34: the test of OPM decides between the error action and the power, which RES holds without loss. -/
theorem modpowStoresThePower : Obligations.ModpowStoresThePower := by
  refine ⟨by decide, fun s => ⟨fun h => ?_, fun h => ?_⟩⟩
  · have hm : 1 ≤ s.opm.toNat := Nat.pos_of_ne_zero fun h0 => h (BitVec.eq_of_toNat_eq h0)
    have hres : (complete (effect .modpow s)).res.toNat = modpow s.opa.toNat s.ope.toNat s.opm.toNat :=
      modpow_toNat_ofNat _ _ hm
    refine ⟨_, exec_modpow_of_ne h, rfl, ?_, ?_⟩
    · rw [hres, modpow_eq_ite _ _ hm]
    · rw [hres]
      exact modpow_lt _ _ hm
  · rw [exec_modpow_of_eq h, raiseError_eq]
    rfl

end Sys2Proof.Machine
end

section
/-! PROOFS. The statements of spec/42_hash.md: the rolling hash is a polynomial (R115), the five hash commands (R116 to
R120) with the two other commands that only clear registers (R156, R171), and the bounds of ACC (R121). -/

namespace Sys2Proof.Machine

/-! ## The functions -/

/-- Horner's rule: a further byte multiplies every weight by 37. -/
theorem polyHash_append_singleton (text : List Byte) (c : Byte) :
    polyHash (text ++ [c]) = polyHash text * 37 + c.toNat := by
  have hweight : ∀ j ∈ List.range text.length,
      ((text ++ [c]).getD j 0).toNat * 37 ^ (text.length - j) =
        (text.getD j 0).toNat * 37 ^ (text.length - 1 - j) * 37 := by
    intro j hj
    have hlt : j < text.length := List.mem_range.1 hj
    rw [List.getD_append _ _ _ _ hlt, mul_assoc, ← pow_succ,
      show text.length - 1 - j + 1 = text.length - j by omega]
  rw [polyHash, polyHash, ← List.sum_map_mul_right, ← List.map_congr_left hweight]
  simp [List.range_succ]

theorem hashA_append_singleton (text : List Byte) (c : Byte) : hashA (text ++ [c]) = absorb (hashA text) c.toNat :=
  List.foldl_append

/-- A reduction before `absorb` does not show after it (R115). -/
theorem absorb_mod (a c : Nat) : absorb (a % 988144257431) c = (a * 37 + c) % 988144257431 := by
  rw [absorb, Config.mult, Config.m3]
  omega

/-- The hash of the bytes in TXT is a fold over their offsets (R115). -/
theorem hashA_textOf (txt : Memory) (tlen : BitVec 7) :
    hashA (textOf txt tlen) =
      (List.range tlen.toNat).foldl (fun a j => (a * 37 + (txt.read j).toNat) % 988144257431) 0 :=
  List.foldl_map

/-- Step b is the power function (R119). -/
theorem expStep_eq (a : Nat) : expStep a = a ^ 9941 % 99400891 := by
  rw [expStep, modpow_eq_pow_mod _ _ (by decide), Config.p1, Config.m2]

/-- Step c on the register is the XOR of words (R120). -/
theorem ofNat_mixStep (a : BitVec 40) : BitVec.ofNat 40 (mixStep a.toNat) = a ^^^ 0x26CF#40 := by
  apply BitVec.eq_of_toNat_eq
  rw [BitVec.toNat_ofNat, Nat.mod_eq_of_lt (mixStep_lt a.isLt), BitVec.toNat_xor]
  rfl

/-! ## The commands -/

/-- The code is the low half of the word, the opcode its high byte (R80, R83). -/
theorem encode_habs (code : BitVec 16) : encode (.habs code) = 0x11000000 ||| code.setWidth 32 := by
  have himm : (Instr.habs code).imm = code := BitVec.eq_of_toNat_eq (Instr.imm_toNat _)
  have hop : Mnemonic.habs.op.setWidth 32 <<< 24 = (0x11000000 : CmdWord) := by decide
  rw [encode, wordOf, himm, Instr.mnemonic, hop]

theorem exec_habs (code : BitVec 16) (s : State) :
    exec (.habs code) s = .next (complete (setAcc (absorb s.acc.toNat code.toNat) s)) := rfl

theorem exec_hfeed {s : State} (h : s.tlen.toNat ≤ 64) :
    exec .hfeed s = .next (complete (setAcc (hashA s.text) s)) := withText_ok h _

theorem exec_hexp (s : State) : exec .hexp s = .next (complete (setAcc (expStep s.acc.toNat) s)) := rfl

theorem exec_hmix (s : State) : exec .hmix s = .next (complete (setAcc (mixStep s.acc.toNat) s)) := rfl

/-- A value of at most 40 bits is stored in ACC without loss. -/
theorem complete_setAcc_toNat {v : Nat} (hv : v < 2 ^ 40) (s : State) : (complete (setAcc v s)).acc.toNat = v := by
  rw [complete_acc, setAcc_acc, BitVec.toNat_ofNat, Nat.mod_eq_of_lt hv]

section StoresAcc

variable {i : Instr} {s : State} {v : Nat} (h : exec i s = .next (complete (setAcc v s))) (hv : v < 2 ^ 40)
include h hv

/-- A command that completes with a store to ACC answers with that value there and nothing else changed. -/
theorem exec_setAcc_frame :
    ∃ t, exec i s = .next t ∧ t = { s with acc := t.acc, busy := false, done := true } ∧ t.acc.toNat = v :=
  ⟨_, h, rfl, complete_setAcc_toNat hv s⟩

theorem acc_of_exec_setAcc {t : State} (ht : exec i s = .next t) : t.acc.toNat = v := by
  cases h.symm.trans ht
  exact complete_setAcc_toNat hv s

end StoresAcc

/-- HMIX as an XOR of words (R120). -/
theorem exec_hmix_xor (s : State) :
    exec .hmix s = .next { s with acc := s.acc ^^^ 0x26CF#40, busy := false, done := true } := by
  rw [exec_hmix, setAcc, ofNat_mixStep, complete]

/-! ## The obligations -/

/-- Settles O37: both sides follow Horner's rule as the text grows at its end. -/
theorem rollingHashIsThePolynomial : Obligations.RollingHashIsThePolynomial := by
  intro text
  induction text using List.reverseRecOn with
  | nil => rfl
  | append_singleton text c ih => rw [hashA_append_singleton, ih, absorb_mod, polyHash_append_singleton]

/-- Settles O38: the square-and-multiply of step b is the power, below `M2`. -/
theorem hexpRaisesToP1 : Obligations.HexpRaisesToP1 := by
  refine ⟨by decide, fun s => ?_⟩
  have hlt := expStep_lt s.acc.toNat
  obtain ⟨t, hexec, hframe, hacc⟩ := exec_setAcc_frame (exec_hexp s) (hlt.trans (by decide))
  exact ⟨t, hexec, hframe, hacc.trans (expStep_eq _), hacc ▸ hlt⟩

/-- Settles O39: the constant has 14 bits, so the quotient by `2^14` stays; the second XOR cancels the first. -/
theorem hmixXorsAndUndoesItself : Obligations.HmixXorsAndUndoesItself := by
  refine ⟨by decide, fun s => ⟨_, exec_hmix_xor s, rfl, ?_⟩⟩
  have hacc : (s.acc ^^^ 0x26CF#40).toNat = mixStep s.acc.toNat :=
    acc_of_exec_setAcc (exec_hmix s) (mixStep_lt s.acc.isLt) (exec_hmix_xor s)
  have hdiv := mixStep_div s.acc.toNat
  rw [← hacc] at hdiv
  refine ⟨hdiv, fun hlt => ?_, _, exec_hmix_xor _, ?_⟩
  · show (s.acc ^^^ 0x26CF#40).toNat ≤ 99401727
    omega
  · show s.acc ^^^ 0x26CF#40 ^^^ 0x26CF#40 = s.acc
    rw [BitVec.xor_assoc, BitVec.xor_self, BitVec.xor_zero]

/-- Settles O40: each value stored has its function's bound, and HMIX takes the value HEXP left. -/
theorem accumulatorBounds : Obligations.AccumulatorBounds := by
  refine ⟨fun s t code h => ?_, fun s t h => ?_, fun s t u hexp hmix => ?_⟩
  · have hlt := absorb_lt s.acc.toNat code.toNat
    rwa [acc_of_exec_setAcc (exec_habs code s) (hlt.trans (by decide)) h]
  · have hlt := hashA_lt s.text
    rwa [withText_next h, complete_setAcc_toNat (hlt.trans (by decide))]
  · have hlt := expStep_lt s.acc.toNat
    have ht := acc_of_exec_setAcc (exec_hexp s) (hlt.trans (by decide)) hexp
    have hu := acc_of_exec_setAcc (exec_hmix t) (mixStep_lt t.acc.isLt) hmix
    rw [hu, ht]
    exact ⟨hlt, mixStep_expStep_le _⟩

/-- Settles O31: `complete` adds BUSY and DONE to the registers the command clears. -/
theorem startCommandsClearTheirRegisters : Obligations.StartCommandsClearTheirRegisters := by
  refine ⟨by decide, by decide, by decide, fun s => ⟨?hinit, ?sstart, ?dstart⟩⟩
  case hinit => rfl
  case sstart => rfl
  case dstart => rfl

/-- Settles O35: the absorbed value is below `M3`, so ACC holds it whole. -/
theorem habsAbsorbsOneCode : Obligations.HabsAbsorbsOneCode := by
  intro code
  refine ⟨encode_habs code, fun s => ?_⟩
  exact exec_setAcc_frame (exec_habs code s) ((absorb_lt _ _).trans (by decide))

/-- Settles O36: within TXT the command completes, and the hash of its text is the fold over the offsets. -/
theorem hfeedFoldsTheText : Obligations.HfeedFoldsTheText := by
  refine ⟨by decide, fun s h => ?_⟩
  rw [← hashA_textOf]
  exact exec_setAcc_frame (exec_hfeed h) ((hashA_lt _).trans (by decide))

end Sys2Proof.Machine
end

section
/-! PROOFS. The statements of spec/43_matrix_string.md: HMAT (R130), the decimal text of a vector (R131), HSTR (R132),
the bounds of the text (R133), and that every step keeps the shape of the vector (R32, R133). -/

namespace Sys2Proof.Machine

/-! ## Decimal numerals (R7) -/

theorem digitByte_toNat {d : Nat} (hd : d < 10) : (digitByte d).toNat = 0x30 + d := by
  rw [digitByte, BitVec.toNat_ofNat, Nat.mod_eq_of_lt (by omega)]

/-- A numeral is one digit, or the numeral of the tens followed by one digit. -/
theorem dec_induction {p : Nat → List Byte → Prop} (small : ∀ n < 10, p n [digitByte n])
    (large : ∀ n, 10 ≤ n → p (n / 10) (dec (n / 10)) → p n (dec (n / 10) ++ [digitByte (n % 10)])) (n : Nat) :
    p n (dec n) := by
  induction n using Nat.strongRecOn with
  | ind n ih =>
    by_cases hn : n < 10
    · exact dec_small hn ▸ small n hn
    · have hn : 10 ≤ n := Nat.le_of_not_lt hn
      exact dec_large hn ▸ large n hn (ih (n / 10) (by omega))

theorem dec_ne_nil (n : Nat) : dec n ≠ [] := List.length_pos_iff.1 (dec_length_pos n)

theorem decimalValue_append_singleton (ds : List Byte) (b : Byte) :
    decimalValue (ds ++ [b]) = decimalValue ds * 10 + (b.toNat - 0x30) := List.foldl_append

theorem decimalValue_dec (n : Nat) : decimalValue (dec n) = n := by
  refine dec_induction (p := fun n ds => decimalValue ds = n) (fun n hn => ?_) (fun n _ ih => ?_) n
  · rw [decimalValue, List.foldl_cons, List.foldl_nil, digitByte_toNat hn]
    omega
  · rw [decimalValue_append_singleton, ih, digitByte_toNat (Nat.mod_lt n (by decide))]
    omega

/-- One of the bytes 0x30 to 0x39 (R7). -/
def IsDigit (b : Byte) : Prop := 0x30 ≤ b.toNat ∧ b.toNat ≤ 0x39

theorem isDigit_digitByte {d : Nat} (hd : d < 10) : IsDigit (digitByte d) := by
  rw [IsDigit, digitByte_toNat hd]
  omega

theorem isDigit_of_mem_dec (n : Nat) : ∀ b ∈ dec n, IsDigit b := by
  refine dec_induction (p := fun _ ds => ∀ b ∈ ds, IsDigit b) (fun n hn => ?_) (fun n _ ih => ?_) n
  · exact List.forall_mem_singleton.2 (isDigit_digitByte hn)
  · exact List.forall_mem_append.2
      ⟨ih, List.forall_mem_singleton.2 (isDigit_digitByte (Nat.mod_lt n (by decide)))⟩

/-- A numeral begins with 0 only for the number 0: the first digit is that of the tens, which are not 0 (R7). -/
theorem dec_head (n : Nat) : n ≠ 0 → (dec n).head? ≠ some 0x30 := by
  refine dec_induction (p := fun n ds => n ≠ 0 → ds.head? ≠ some 0x30) (fun n hn h0 hhead => ?_)
    (fun n hn ih _ => ?_) n
  · have hdigit : (digitByte n).toNat = 0x30 := congrArg BitVec.toNat (Option.some.inj hhead)
    rw [digitByte_toNat hn] at hdigit
    omega
  · rw [List.head?_append_of_ne_nil _ (dec_ne_nil _)]
    exact ih (by omega)

/-! ## The text of a vector (R131, R133) -/

theorem str3_bytes (x y z : Nat) : ∀ b ∈ str3 x y z, b = 0x2C ∨ IsDigit b := by
  intro b hb
  simp only [str3, List.mem_append, List.mem_singleton] at hb
  rcases hb with (((hb | hb) | hb) | hb) | hb
  · exact .inr (isDigit_of_mem_dec x b hb)
  · exact .inl hb
  · exact .inr (isDigit_of_mem_dec y b hb)
  · exact .inl hb
  · exact .inr (isDigit_of_mem_dec z b hb)

/-- The 2-, 7- and 17-fold of a 40-bit value have at most 13, 13 and 14 digits (R133). -/
theorem str3_multiples_length {a : Nat} (ha : a < 2 ^ 40) : (str3 (2 * a) (7 * a) (17 * a)).length ≤ 42 := by
  have hx := dec_length_le (k := 13) (by decide) (show 2 * a < 10 ^ 13 by omega)
  have hy := dec_length_le (k := 13) (by decide) (show 7 * a < 10 ^ 13 by omega)
  have hz := dec_length_le (k := 14) (by decide) (show 17 * a < 10 ^ 14 by omega)
  rw [str3_length]
  omega

/-- A byte below the length is one of the text. -/
theorem read_mem_textOf (txt : Memory) {tlen : BitVec 7} {j : Nat} (hj : j < tlen.toNat) :
    txt.read j ∈ textOf txt tlen := List.mem_map_of_mem (List.mem_range.2 hj)

/-! ## The commands -/

theorem exec_hmat (s : State) : exec .hmat s = .next (complete (effect .hmat s)) := rfl

theorem exec_hstr (s : State) : exec .hstr s = .next (complete (effect .hstr s)) := rfl

theorem exec_hfin (s : State) : exec .hfin s = .next (complete (effect .hfin s)) := rfl

/-- The vector's registers hold the multiples of any 40-bit value whole (R130: "no truncation"). -/
theorem effect_hmat_vector (s : State) :
    (effect .hmat s).v0.toNat = 2 * s.acc.toNat ∧ (effect .hmat s).v1.toNat = 7 * s.acc.toNat ∧
    (effect .hmat s).v2.toNat = 17 * s.acc.toNat := by
  have hacc : s.acc.toNat < 2 ^ 40 := s.acc.isLt
  simp only [effect, setVector_v0, setVector_v1, setVector_v2, BitVec.toNat_ofNat, matRow_zero, matRow_one, matRow_two]
  omega

/-- The text that HSTR stores (R132). -/
abbrev State.vectorText (s : State) : List Byte := str3 s.v0.toNat s.v1.toNat s.v2.toNat

theorem vectorText_length (s : State) : 5 ≤ s.vectorText.length ∧ s.vectorText.length ≤ 44 :=
  str3_length_bounds s.v0.isLt s.v1.isLt s.v2.isLt

theorem vectorText_length_of_shape {s : State} (hs : s.VectorOfAcc) : s.vectorText.length ≤ 42 := by
  obtain ⟨a, h0, h1, h2⟩ := hs
  rw [State.vectorText, h0, h1, h2]
  exact str3_multiples_length a.isLt

theorem effect_hstr_tlen (s : State) : (effect .hstr s).tlen.toNat = s.vectorText.length :=
  tlen_ofNat ((vectorText_length s).2.trans (by decide))

theorem effect_hstr_read {s : State} (htxt : s.txt.wf Config.txtCap = true) (j : Nat) :
    (effect .hstr s).txt.read j = if j < s.vectorText.length then s.vectorText.getD j 0 else s.txt.read j :=
  stored_read ((vectorText_length s).2.trans (by decide)) htxt j

/-- The text HFIN leaves is one of three numerals, whatever TXT held before (R131, R141). -/
theorem effect_hfin_byte {s : State} (htxt : s.txt.wf Config.txtCap = true) {j : Nat}
    (hj : j < (effect .hfin s).tlen.toNat) :
    (effect .hfin s).txt.read j = 0x2C ∨ IsDigit ((effect .hfin s).txt.read j) := by
  have htext := storeRound_text s.acc.toNat (x := s.roundRegs) htxt
  have hmem : (effect .hfin s).txt.read j ∈ textOf (effect .hfin s).txt (effect .hfin s).tlen := read_mem_textOf _ hj
  exact str3_bytes _ _ _ _ (htext ▸ hmem)

/-! ## The shape of the vector, step by step -/

theorem AfterRound.vector {a : Nat} {x : RoundRegs} (h : AfterRound a x) :
    x.v0.toNat = 2 * x.acc.toNat ∧ x.v1.toNat = 7 * x.acc.toNat ∧ x.v2.toNat = 17 * x.acc.toNat := by
  rw [h.acc]
  exact ⟨h.v0, h.v1, h.v2⟩

/-- HMAT and a round leave the multiples of ACC; no other command writes the vector, nor do no rounds (R32). -/
theorem effect_vectorOfAcc (i : Instr) {s : State} (hs : s.VectorOfAcc) : (effect i s).VectorOfAcc := by
  cases i
  case hmat => exact ⟨s.acc, effect_hmat_vector s⟩
  case hfin => exact ⟨_, (finishRound_after s.roundRegs).vector⟩
  case rounds n =>
    rw [effect]
    cases n.toNat with
    | zero => exact hs
    | succ k =>
      obtain ⟨a, hround⟩ := repeatRounds_after k s.roundRegs
      exact ⟨_, hround.vector⟩
  case derive =>
    obtain ⟨k, -, heff⟩ := effect_derive s
    obtain ⟨a, hround⟩ := repeatRounds_after k (finishRound s.roundRegs)
    rw [heff]
    exact ⟨_, hround.vector⟩
  all_goals exact hs

theorem raiseError_vectorOfAcc (e : ErrorCode) (w : BitVec 32) {s : State} (hs : s.VectorOfAcc) :
    (raiseError e w s).VectorOfAcc := by
  rw [raiseError_eq]
  exact hs

theorem completion_vectorOfAcc {s t : State} (hs : s.VectorOfAcc) (h : completion s = .next t) : t.VectorOfAcc := by
  rw [completion] at h
  split at h
  · cases h
    exact raiseError_vectorOfAcc .illCmd s.cw hs
  · rcases exec_next h with ⟨e, -, rfl⟩ | rfl
    · exact raiseError_vectorOfAcc e s.cw hs
    · exact effect_vectorOfAcc _ hs

theorem engineTurn_vectorOfAcc {s t : State} (hs : s.VectorOfAcc) (h : engineTurn s = .next t) : t.VectorOfAcc := by
  cases hbusy : s.busy with
  | true => exact completion_vectorOfAcc hs ((engineTurn_busy hbusy).symm.trans h)
  | false =>
    cases (engineTurn_idle hbusy).symm.trans h
    exact hs

/-- V0, V1 and V2 are read-only to the host (R32, R65). -/
theorem writeReg_vectorOfAcc (v : Data) {s : State} (hs : s.VectorOfAcc) (r : PortReg) :
    (writeReg v s r).VectorOfAcc := by
  cases r
  case status =>
    rw [writeReg, writeStatus_eq]
    exact hs
  case cmd =>
    rw [writeReg, acceptCommand]
    split_ifs
    · exact hs
    · exact hs
  case tlen =>
    rw [writeReg, writeTlen]
    split_ifs
    · exact hs
    · exact raiseError_vectorOfAcc .badVal 0x14 hs
  case klen =>
    rw [writeReg, writeKlen]
    split_ifs
    · exact hs
    · exact raiseError_vectorOfAcc .badVal 0x18 hs
  all_goals exact hs

theorem portWrite_vectorOfAcc (idx : Index) (v : Data) {s : State} (hs : s.VectorOfAcc) :
    (portWrite idx v s).VectorOfAcc := by
  cases hbusy : s.busy with
  | true =>
    obtain ⟨_, _, _, _, _, hw⟩ := portWrite_busy_frame hbusy idx v
    rw [hw]
    exact hs
  | false =>
    rw [portWrite_idle hbusy]
    exact writeReg_vectorOfAcc v hs _

theorem takeTurn_vectorOfAcc (turn : Turn) {s t : State} (hs : s.VectorOfAcc) (h : takeTurn turn s = .next t) :
    t.VectorOfAcc := by
  cases turn with
  | read idx => cases h; exact hs
  | write idx v => cases h; exact portWrite_vectorOfAcc idx v hs
  | rst => cases h; exact ⟨0, rfl, rfl, rfl⟩
  | engine => exact engineTurn_vectorOfAcc hs h

/-! ## The obligations -/

/-- Settles O11: a step either leaves the vector alone or stores the multiples of the 40-bit ACC. -/
theorem stepKeepsTheVectorShape : Obligations.StepKeepsTheVectorShape := by
  intro s t hs h
  cases hturns : s.turns with
  | nil => exact engineTurn_vectorOfAcc hs ((step_of_no_turns hturns).symm.trans h)
  | cons turn rest =>
    exact takeTurn_vectorOfAcc turn (s := { s with turns := rest }) hs ((step_of_turn hturns).symm.trans h)

/-- Settles O42: the facts about `dec` follow its digits from the last to the first. -/
theorem vectorTextIsCommaJoinedDecimal : Obligations.VectorTextIsCommaJoinedDecimal :=
  ⟨fun _ _ _ => rfl, fun n => ⟨decimalValue_dec n, dec_ne_nil n, isDigit_of_mem_dec n, dec_head n⟩,
    dec_small (by decide)⟩

/-- Settles O43: the text fits TXT and TLEN; a read finds it below its length and the old byte from there on. -/
theorem hstrWritesTheVectorText : Obligations.HstrWritesTheVectorText := by
  refine ⟨by decide, fun s htxt => ⟨_, exec_hstr s, rfl, ?_⟩⟩
  rw [complete_tlen, complete_txt, effect_hstr_tlen]
  refine ⟨rfl, fun j hj => ?_, fun j hj => ?_⟩
  · rw [effect_hstr_read htxt, if_pos hj, List.getD_eq_getElem _ _ hj]
    exact List.getElem?_eq_getElem hj
  · rw [effect_hstr_read htxt, if_neg (Nat.not_lt.2 hj)]

/-- Settles O44: the length is that of the text stored, whose bytes are those of its numerals and the commas. -/
theorem textLengthBounds : Obligations.TextLengthBounds := by
  refine ⟨fun s t h => ?_, fun s t htxt h => ?_⟩
  · cases (exec_hstr s).symm.trans h
    obtain ⟨hmin, hmax⟩ := vectorText_length s
    rw [complete_tlen, effect_hstr_tlen]
    exact ⟨hmin, hmax, vectorText_length_of_shape⟩
  · cases (exec_hfin s).symm.trans h
    obtain ⟨hmin, hmax⟩ := (finishRound_after s.roundRegs).tlen
    exact ⟨hmin, hmax, fun j hj => effect_hfin_byte htxt hj⟩

/-- Settles O41: column 0 of the matrix is 2, 7, 17, and 17 times a 40-bit value fits 45 bits. -/
theorem hmatMultipliesByColumnZero : Obligations.HmatMultipliesByColumnZero :=
  ⟨by decide, fun s => ⟨_, exec_hmat s, rfl, effect_hmat_vector s⟩⟩

end Sys2Proof.Machine
end

section
/-! PROOFS. The statements of spec/44_round_derive.md: HFIN (R141), ROUNDS (R143), DERIVE (R144), KLOAD (R145), what
they store in the buffers (R223), the derived key (R153), and that the two derivations of R146 agree. -/

namespace Sys2Proof.Machine

/-! ## HFIN, step by step (R141) -/

theorem exec_hmix_after_setAcc {v : Nat} (hv : v < 2 ^ 40) (s : State) :
    exec .hmix (complete (setAcc v s)) = .next (complete (setAcc (mixStep v) s)) := by
  rw [exec_hmix, complete_setAcc_toNat hv]
  rfl

theorem exec_hmat_after_setAcc {v : Nat} (hv : v < 2 ^ 40) (s : State) :
    exec .hmat (complete (setAcc v s)) =
      .next (complete (setVector (matRow 0 v) (matRow 1 v) (matRow 2 v) (setAcc v s))) := by
  rw [exec_hmat, effect, complete_setAcc_toNat hv]
  rfl

/-- HSTR formats the vector that was stored, as 45 bits hold it whole (R32, R132). -/
theorem exec_hstr_after_setVector {x y z : Nat} (hx : x < 2 ^ 45) (hy : y < 2 ^ 45) (hz : z < 2 ^ 45) (s : State) :
    exec .hstr (complete (setVector x y z s)) = .next (complete (setText (str3 x y z) (setVector x y z s))) := by
  rw [exec_hstr, effect, complete_v0, complete_v1, complete_v2, setVector_v0, setVector_v1, setVector_v2,
    BitVec.toNat_ofNat, BitVec.toNat_ofNat, BitVec.toNat_ofNat, Nat.mod_eq_of_lt hx, Nat.mod_eq_of_lt hy,
    Nat.mod_eq_of_lt hz]
  rfl

/-- The stores of a round are those of HMIX, HMAT and HSTR. -/
theorem setRoundRegs_storeRound (r : RoundResult) (s : State) :
    setRoundRegs (storeRound r s.roundRegs) s = setText r.text (setVector r.v0 r.v1 r.v2 (setAcc r.acc s)) := rfl

/-! ## The commands -/

/-- The state in which `n` rounds have completed and left `x` in the round registers (R141, R143). -/
def completeRounds (n : Nat) (x : RoundRegs) (s : State) : State := complete (addRounds n (setRoundRegs x s))

section CompleteRounds

variable (n : Nat) (x : RoundRegs) (s : State)

@[simp] theorem completeRounds_roundRegs : (completeRounds n x s).roundRegs = x := (rfl)
@[simp] theorem completeRounds_txt : (completeRounds n x s).txt = x.txt := (rfl)
@[simp] theorem completeRounds_tlen : (completeRounds n x s).tlen = x.tlen := (rfl)
@[simp] theorem completeRounds_acc : (completeRounds n x s).acc = x.acc := (rfl)
@[simp] theorem completeRounds_rcnt : (completeRounds n x s).rcnt = s.rcnt + BitVec.ofNat 32 n := (rfl)

theorem completeRounds_frame :
    completeRounds n x s =
      { s with acc := x.acc, v0 := x.v0, v1 := x.v1, v2 := x.v2, txt := x.txt, tlen := x.tlen,
               rcnt := s.rcnt + BitVec.ofNat 32 n, busy := false, done := true } := rfl

/-- The later rounds' registers stand, and the counts add (R34). -/
theorem completeRounds_completeRounds (m : Nat) (y : RoundRegs) :
    completeRounds m y (completeRounds n x s) = completeRounds (n + m) y s := by
  simp only [completeRounds_frame, BitVec.add_assoc, ← BitVec.ofNat_add]

end CompleteRounds

/-- The count is the low half of the word, the opcode its high byte (R80, R83). -/
theorem encode_rounds (n : BitVec 16) : encode (.rounds n) = 0x18000000 ||| n.setWidth 32 := by
  have himm : (Instr.rounds n).imm = n := BitVec.eq_of_toNat_eq (Instr.imm_toNat _)
  have hop : Mnemonic.rounds.op.setWidth 32 <<< 24 = (0x18000000 : CmdWord) := by decide
  rw [encode, wordOf, himm, Instr.mnemonic, hop]

theorem exec_hinit (s : State) : exec .hinit s = .next (complete (setAcc 0 { s with rcnt := 0 })) := rfl

theorem exec_hfin_rounds (s : State) : exec .hfin s = .next (completeRounds 1 (finishRound s.roundRegs) s) := rfl

theorem exec_rounds_zero (s : State) : exec (.rounds 0) s = .next (complete s) := rfl

/-- ROUNDS is its rounds, and its count, wherever it answers a next state (R143). -/
theorem exec_rounds_next {n : BitVec 16} {s t : State} (h : exec (.rounds n) s = .next t) :
    t = completeRounds n.toNat (repeatRounds n.toNat s.roundRegs) s := by
  rcases exec_next h with ⟨_, hfalse, -⟩ | ht
  · exact hfalse.elim
  · exact ht

theorem exec_rounds {s : State} (htlen : s.tlen.toNat ≤ 64) (n : BitVec 16) :
    exec (.rounds n) s = .next (completeRounds n.toNat (repeatRounds n.toNat s.roundRegs) s) := by
  by_cases h0 : n = 0
  · subst h0
    exact congrArg Host.Outcome.next (congrArg complete (addRounds_zero s).symm)
  · exact (if_neg h0).trans (withText_ok htlen _)

theorem exec_kload {s : State} (htlen : s.tlen.toNat ≤ 64) : exec .kload s = .next (complete (loadKey s)) :=
  withText_ok htlen _

/-- HFIN's part of a round, on the value that a command before it stored in ACC (R141). -/
theorem finishRound_after_setAcc {v : Nat} (hv : v < 2 ^ 40) (s : State) :
    finishRound (complete (setAcc v s)).roundRegs = storeRound (roundTail v) s.roundRegs :=
  congrArg (fun a => storeRound (roundTail a) s.roundRegs) (complete_setAcc_toNat hv s)

/-- Rounds overwrite a value stored in ACC before them. -/
theorem completeRounds_after_setAcc (n v : Nat) (x : RoundRegs) (s : State) :
    completeRounds n x (complete (setAcc v s)) = completeRounds n x s := rfl

/-- DERIVE's rounds and key load, the count of rounds after the first as a variable: nothing here runs them (R144). -/
theorem exec_derive_rounds {n : Nat} (hn : n + 1 = 20000) (s : State) :
    exec .derive s =
      .next (complete (loadKey (completeRounds 20000 (repeatRounds n (finishRound s.roundRegs)) s))) := by
  have hiter : Config.iter - 1 = n := (Nat.eq_sub_of_add_eq hn).symm
  rw [exec_derive, effect, hiter]
  rfl

/-! ## What runs of rounds leave -/

/-- A round leaves TXT from byte 30 on as it was (R133, R223). -/
theorem storeRound_tail_of_le (a : Nat) {x : RoundRegs} (hm : x.txt.wf Config.txtCap = true) {j : Nat} (hj : 30 ≤ j) :
    (storeRound (roundTail a) x).txt.read j = x.txt.read j :=
  storeRound_tail a hm ((storeRound_after a x).tlen.2.trans hj)

theorem repeatRounds_tail (n : Nat) {x : RoundRegs} (hm : x.txt.wf Config.txtCap = true) {j : Nat} (hj : 30 ≤ j) :
    (repeatRounds n x).txt.read j = x.txt.read j := by
  induction n generalizing x with
  | zero => rfl
  | succ n ih => exact (ih (oneRound_wf hm)).trans (storeRound_tail_of_le _ hm hj)

theorem repeatRounds_finishRound_tlen (n : Nat) (x : RoundRegs) : (repeatRounds n (finishRound x)).tlen.toNat ≤ 30 := by
  rcases repeatRounds_tlen n (finishRound x) with h | h
  · rw [h]
    exact (finishRound_after x).tlen.2
  · exact h

/-- The text after a round is that of the multiples of ACC (R140, R153). -/
theorem repeatRounds_text (n : Nat) {x : RoundRegs} (hm : x.txt.wf Config.txtCap = true) :
    textOf (repeatRounds (n + 1) x).txt (repeatRounds (n + 1) x).tlen =
      str3 (2 * (repeatRounds (n + 1) x).acc.toNat) (7 * (repeatRounds (n + 1) x).acc.toNat)
        (17 * (repeatRounds (n + 1) x).acc.toNat) := by
  rw [repeatRounds_last, (oneRound_after (repeatRounds n x)).acc]
  exact storeRound_text _ (repeatRounds_wf n hm)

/-- ACC after a round has at most 27 bits (R133, R153). -/
theorem AfterRound.acc_lt {a : Nat} {x : RoundRegs} (h : AfterRound a x) : x.acc.toNat < 2 ^ 27 := by
  rw [h.acc]
  exact (mixStep_expStep_le a).trans_lt (by decide)

/-- ROUNDS after HFIN's round ends where DERIVE loads its key: the later rounds and the first make 20000 (R144). -/
theorem exec_rounds_after_hfin {n : BitVec 16} (hn : n.toNat + 1 = 20000) (s : State) :
    ∃ x : RoundRegs, x.tlen.toNat ≤ 64 ∧
      exec (.rounds n) (completeRounds 1 (finishRound s.roundRegs) s) = .next (completeRounds 20000 x s) ∧
      exec .derive s = .next (complete (loadKey (completeRounds 20000 x s))) := by
  refine ⟨_, (repeatRounds_finishRound_tlen n.toNat s.roundRegs).trans (by decide), ?_, exec_derive_rounds hn s⟩
  have htlen : (completeRounds 1 (finishRound s.roundRegs) s).tlen.toNat ≤ 64 :=
    (finishRound_after s.roundRegs).tlen.2.trans (by decide)
  rw [exec_rounds htlen, completeRounds_completeRounds, completeRounds_roundRegs, Nat.add_comm 1, hn]

/-! ## Rounds from two buffers with one text -/

/-- The same values in the registers of a round, and the same text in two buffers that may differ beyond it (R146). -/
structure SameRound (x y : RoundRegs) : Prop where
  acc : x.acc = y.acc
  v0 : x.v0 = y.v0
  v1 : x.v1 = y.v1
  v2 : x.v2 = y.v2
  tlen : x.tlen = y.tlen
  text : textOf x.txt x.tlen = textOf y.txt y.tlen
  wf_left : x.txt.wf Config.txtCap = true
  wf_right : y.txt.wf Config.txtCap = true

theorem storeRound_same (a : Nat) {x y : RoundRegs} (hx : x.txt.wf Config.txtCap = true)
    (hy : y.txt.wf Config.txtCap = true) :
    SameRound (storeRound (roundTail a) x) (storeRound (roundTail a) y) where
  acc := rfl
  v0 := rfl
  v1 := rfl
  v2 := rfl
  tlen := rfl
  text := (storeRound_text a hx).trans (storeRound_text a hy).symm
  wf_left := storeRound_wf a hx
  wf_right := storeRound_wf a hy

/-- A round reads nothing but its text (R143). -/
theorem SameRound.after_oneRound {x y : RoundRegs} (h : SameRound x y) : SameRound (oneRound x) (oneRound y) := by
  rw [oneRound, h.text]
  exact storeRound_same _ h.wf_left h.wf_right

theorem SameRound.after_repeatRounds (n : Nat) {x y : RoundRegs} (h : SameRound x y) :
    SameRound (repeatRounds n x) (repeatRounds n y) := by
  induction n generalizing x y with
  | zero => exact h
  | succ n ih => exact ih h.after_oneRound

theorem SameRound.read {x y : RoundRegs} (h : SameRound x y) {j : Nat} (hj : j < x.tlen.toNat) :
    x.txt.read j = y.txt.read j := by
  have htext := h.text
  rw [textOf, textOf, ← h.tlen] at htext
  exact List.map_inj_left.1 htext j (List.mem_range.2 hj)

/-- The key load from one text over one key gives one key (R145). -/
theorem SameRound.key_eq {s t : State} (h : SameRound s.roundRegs t.roundRegs) (hkey : s.key = t.key)
    (hwf : s.key.wf Config.keyCap = true) :
    (loadKey s).klen = (loadKey t).klen ∧ ∀ j, (loadKey s).key.read j = (loadKey t).key.read j := by
  have htlen : s.tlen = t.tlen := h.tlen
  refine ⟨by rw [loadKey_klen, loadKey_klen, htlen], fun j => ?_⟩
  rw [loadKey_read hwf, loadKey_read (hkey ▸ hwf), ← htlen, ← hkey]
  split_ifs with hj
  · exact h.read hj
  · rfl

/-! ## Sequences of commands -/

theorem execAll_cons {i : Instr} {s t : State} (h : exec i s = .next t) (is : List Instr) :
    execAll (i :: is) s = execAll is t := by
  rw [execAll, h]

/-- HABS of every byte folds the text into ACC (R117, R146). -/
theorem execAll_habs (text : List Byte) (rest : List Instr) {v : Nat} (hv : v < 988144257431) (s : State) :
    execAll (text.map (fun c => .habs (c.setWidth 16)) ++ rest) (complete (setAcc v s)) =
      execAll rest (complete (setAcc (foldText text v) s)) := by
  induction text generalizing v with
  | nil => rfl
  | cons c text ih =>
    have hcode : (c.setWidth 16).toNat = c.toNat := BitVec.toNat_setWidth_of_le (by decide)
    have hstep : exec (.habs (c.setWidth 16)) (complete (setAcc v s)) =
        .next (complete (setAcc (absorb v c.toNat) s)) := by
      rw [exec_habs, complete_setAcc_toNat (hv.trans (by decide)), hcode]
      rfl
    exact (execAll_cons hstep _).trans (ih (absorb_lt _ _))

/-- The streamed derivation: the text goes to ACC, and TXT is as it was when round 1 ends (R146). -/
theorem execAll_streamed (text : List Byte) {n : Nat} (hn : n + 1 = 20000) (s : State) :
    execAll ([.hinit] ++ text.map (fun c => .habs (c.setWidth 16)) ++ [.derive]) s =
      .next (complete (loadKey (completeRounds 20000 (repeatRounds n (storeRound (roundTail (hashA text)) s.roundRegs))
        { s with rcnt := 0 }))) := by
  have hhash : hashA text < 2 ^ 40 := (hashA_lt text).trans (by decide)
  have hderive := exec_derive_rounds hn (complete (setAcc (hashA text) { s with rcnt := 0 }))
  rw [finishRound_after_setAcc hhash, completeRounds_after_setAcc] at hderive
  rw [List.append_assoc]
  exact (execAll_cons (exec_hinit s) _).trans
    ((execAll_habs text _ (by decide) _).trans (execAll_cons hderive []))

/-- The buffered derivation: round 1 hashes the text in TXT (R146). -/
theorem execAll_buffered {text : List Byte} (hlen : text.length ≤ 64) {n : Nat} {m : BitVec 16} (hm : m.toNat = n + 1)
    {s : State} (htxt : s.txt.wf Config.txtCap = true) :
    execAll [.rounds m, .kload] (setText text s) =
      .next (complete (loadKey (completeRounds (n + 1)
        (repeatRounds n (storeRound (roundTail (hashA text)) (setText text s).roundRegs)) (setText text s)))) := by
  have htext : textOf (setText text s).roundRegs.txt (setText text s).roundRegs.tlen = text := stored_text hlen htxt
  have hrounds := exec_rounds (s := setText text s) ((tlen_ofNat hlen).trans_le hlen) m
  rw [hm, repeatRounds_succ, oneRound, htext] at hrounds
  refine (execAll_cons hrounds _).trans (execAll_cons (exec_kload ?_) [])
  rcases repeatRounds_tlen n (storeRound (roundTail (hashA text)) (setText text s).roundRegs) with h | h
  · rw [completeRounds_tlen, hashRound, h]
    exact (storeRound_after _ _).tlen.2.trans (by decide)
  · exact h.trans (by decide)

/-! ## The obligations -/

/-- Settles O45: every value a step stores fits its register, so the next step reads it whole. -/
theorem hfinIsTheFourStepsAndACount : Obligations.HfinIsTheFourStepsAndACount := by
  refine ⟨by decide, fun s => ?_⟩
  have hexp : expStep s.acc.toNat < 2 ^ 40 := (expStep_lt _).trans (by decide)
  have hmix := mixStep_lt hexp
  refine ⟨_, _, _, _, exec_hexp s, exec_hmix_after_setAcc hexp s, exec_hmat_after_setAcc hmix s,
    exec_hstr_after_setVector ?_ ?_ ?_ _, ?_⟩
  · rw [matRow_zero]; omega
  · rw [matRow_one]; omega
  · rw [matRow_two]; omega
  · rw [exec_hfin, effect, finishRound, setRoundRegs_storeRound]
    rfl

/-- Settles O46: HFEED and HFIN are the first round, the remaining rounds start from the registers it leaves, and the
counts add. -/
theorem roundsRepeatHfeedAndHfin : Obligations.RoundsRepeatHfeedAndHfin := by
  refine ⟨encode_rounds, exec_rounds_zero, fun s n hn htlen => ?_, fun s n htlen => ?_⟩
  · have hhash : hashA s.text < 2 ^ 40 := (hashA_lt _).trans (by decide)
    have hround : finishRound (complete (setAcc (hashA s.text) s)).roundRegs = oneRound s.roundRegs :=
      finishRound_after_setAcc hhash s
    have htlen' : (completeRounds 1 (oneRound s.roundRegs) s).tlen.toNat ≤ 64 :=
      (oneRound_after s.roundRegs).tlen.2.trans (by decide)
    refine ⟨_, _, exec_hfeed htlen, exec_hfin_rounds _, ?_⟩
    rw [hround, completeRounds_after_setAcc, exec_rounds htlen, exec_rounds htlen', completeRounds_completeRounds,
      completeRounds_roundRegs, BitVec.toNat_ofNat, BitVec.toNat_ofNat, Nat.mod_eq_of_lt hn,
      Nat.mod_eq_of_lt (Nat.lt_of_succ_lt hn), repeatRounds_succ, Nat.add_comm 1 n]
  · refine ⟨_, exec_rounds htlen n, ?_, completeRounds_frame _ _ _⟩
    rw [completeRounds_rcnt, BitVec.toNat_add, BitVec.toNat_ofNat, Nat.add_mod_mod]

/-- Settles O47: ROUNDS and KLOAD follow HFIN's round, and leave what DERIVE leaves. -/
theorem deriveIsHfinRoundsKload : Obligations.DeriveIsHfinRoundsKload := by
  refine ⟨by decide, fun s => ?_⟩
  obtain ⟨x, htlen, hrounds, hderive⟩ := exec_rounds_after_hfin (n := 19999) (by decide) s
  exact ⟨_, _, _, exec_hfin_rounds s, hrounds, exec_kload (s := completeRounds 20000 x s) htlen, hderive, rfl, rfl⟩

/-- Settles O48: TLEN has seven bits, so the whole text becomes the key. -/
theorem kloadCopiesTheText : Obligations.KloadCopiesTheText := by
  refine ⟨by decide, fun s htlen hkey => ⟨_, exec_kload htlen, rfl, ?_⟩⟩
  rw [complete_klen, complete_key, loadKey_klen_toNat]
  refine ⟨(min_tlen s).symm, fun j hj => ?_, fun j hj => ?_⟩
  · rw [loadKey_read hkey, if_pos hj]
  · rw [loadKey_read hkey, if_neg (Nat.not_lt.2 hj)]

/-- Settles O49: no round's text passes byte 30, and the key load stores the text and nothing else. -/
theorem compositesKeepTheBufferTails : Obligations.CompositesKeepTheBufferTails := by
  intro s t htxt hkey
  refine ⟨fun h j hj => ?hfin, fun n h j hj => ?rounds, fun h => ?derive⟩
  case hfin =>
    cases (exec_hfin_rounds s).symm.trans h
    exact storeRound_tail s.acc.toNat (x := s.roundRegs) htxt hj
  case rounds =>
    rw [exec_rounds_next h]
    exact repeatRounds_tail n.toNat (x := s.roundRegs) htxt hj
  case derive =>
    obtain ⟨n, hn⟩ : ∃ n, n + 1 = 20000 := ⟨19999, rfl⟩
    have htail {j : Nat} (hj : 30 ≤ j) : (repeatRounds n (finishRound s.roundRegs)).txt.read j = s.txt.read j :=
      (repeatRounds_tail n (finishRound_wf (x := s.roundRegs) htxt) hj).trans
        (storeRound_tail_of_le _ (x := s.roundRegs) htxt hj)
    cases (exec_derive_rounds hn s).symm.trans h
    generalize repeatRounds n (finishRound s.roundRegs) = x at htail
    have hread := loadKey_read (s := completeRounds 20000 x s) hkey
    rw [complete_klen, complete_tlen, complete_txt, complete_key, loadKey_klen_toNat, loadKey_tlen, loadKey_txt,
      completeRounds_txt]
    exact ⟨fun j => htail, rfl, fun j hj => (hread j).trans (if_pos hj),
      fun j hj => (hread j).trans (if_neg (Nat.not_lt.2 hj))⟩

/-- Settles O50: the key is the text that the last of the 20000 rounds leaves. -/
theorem derivedKeyIsShortAndFixedByAcc : Obligations.DerivedKeyIsShortAndFixedByAcc := by
  intro s htxt hkey
  obtain ⟨n, hn⟩ : ∃ n, n + 1 + 1 = 20000 := ⟨19998, rfl⟩
  obtain ⟨a, hround⟩ := repeatRounds_after n (finishRound s.roundRegs)
  have htext := repeatRounds_text n (finishRound_wf (x := s.roundRegs) htxt)
  refine ⟨_, exec_derive_rounds hn s, ?_⟩
  generalize repeatRounds (n + 1) (finishRound s.roundRegs) = x at hround htext
  rw [complete_klen, complete_acc, complete_key, loadKey_klen_toNat, loadKey_acc, completeRounds_tlen,
    completeRounds_acc, ← htext]
  refine ⟨hround.tlen.1, hround.tlen.2, hround.acc_lt, List.map_congr_left fun j hj => ?_⟩
  exact (loadKey_read (s := completeRounds 20000 x s) hkey j).trans (if_pos (List.mem_range.1 hj))

/-- Settles O51: on both paths round 1 starts from the hash of the text, and a later round from the text before it. -/
theorem derivationsAgree : Obligations.DerivationsAgree := by
  intro s text hlen htxt hkey
  obtain ⟨n, hn⟩ : ∃ n, n + 1 = 20000 := ⟨19999, rfl⟩
  have hsame := (storeRound_same (hashA text) (x := s.roundRegs) (y := (setText text s).roundRegs) htxt
    (stored_wf hlen htxt)).after_repeatRounds n
  have hstreamed := execAll_streamed text hn s
  have hbuffered := execAll_buffered hlen (m := 20000) hn.symm htxt
  rw [hn] at hbuffered
  generalize repeatRounds n (storeRound (roundTail (hashA text)) s.roundRegs) = x at hsame hstreamed
  generalize repeatRounds n (storeRound (roundTail (hashA text)) (setText text s).roundRegs) = y at hsame hbuffered
  obtain ⟨hklen, hread⟩ := SameRound.key_eq (s := completeRounds 20000 x { s with rcnt := 0 })
    (t := completeRounds 20000 y (setText text s)) hsame rfl hkey
  exact ⟨_, _, hstreamed, hbuffered, hklen, hread, hsame.acc, hsame.v0, hsame.v1, hsame.v2, hsame.tlen,
    fun j hj => hsame.read hj, BitVec.zero_add _, rfl⟩

end Sys2Proof.Machine
end

section
/-! PROOFS. The statements of spec/45_stream_cipher.md: SBIT (R155, R157), SXOR as eight SBITs (R159, R160), SCHK
(R161), and that a pass undoes itself (R162, R163). The diffuser differs from the cipher in its position counter and its
mask bit alone (spec/46_block_diffuser.md R170 to R173), so what holds of both is proved once, for either family. -/

namespace Sys2Proof.Machine

/-! ## Words with an operand -/

/-- The operand is the low end of the word, the opcode its high byte (R80, R83). -/
theorem encode_of_operand {i : Instr} {n : Nat} {b : BitVec n} {w : CmdWord}
    (hop : i.mnemonic.op.setWidth 32 <<< 24 = w) (h : i.operand = b.toNat) : encode i = w ||| b.setWidth 32 := by
  have himm : i.imm.setWidth 32 = b.setWidth 32 := by
    apply BitVec.eq_of_toNat_eq
    rw [BitVec.toNat_setWidth, BitVec.toNat_setWidth, Instr.imm_toNat, h]
  rw [encode, wordOf, hop, himm]

/-! ## The two XOR families -/

/-- The cipher (SBIT, SXOR) and the diffuser (DBIT, DXOR). -/
inductive XorFamily where
  | cipher
  | diffuser

namespace XorFamily

/-- The command for one bit (R157, R172). -/
def bit : XorFamily → BitVec 1 → Instr
  | cipher => .sbit
  | diffuser => .dbit

/-- The command for one byte (R159, R173). -/
def byte : XorFamily → Byte → Instr
  | cipher => .sxor
  | diffuser => .dxor

/-- The position counter the family advances (R36, R37). -/
def pos : XorFamily → State → BitVec 64
  | cipher, s => s.pos
  | diffuser, s => s.dpos

/-- The bit the family XORs in at a position (R155, R170). -/
def mask : XorFamily → State → BitVec 64 → Bool
  | cipher => ksbit
  | diffuser => dbitmask

/-- The state after a command of the family that completed with output `d` and left its counter at `p`. -/
def after : XorFamily → Byte → BitVec 64 → State → State
  | cipher, d, p, s => complete { s with dout := d, pos := p }
  | diffuser, d, p, s => complete { s with dout := d, dpos := p }

section After

variable (F : XorFamily) (d e : Byte) (p q : BitVec 64) (s : State)

@[simp] theorem after_dout : (F.after d p s).dout = d := by cases F <;> rfl
@[simp] theorem after_pos : F.pos (F.after d p s) = p := by cases F <;> rfl
@[simp] theorem after_key : (F.after d p s).key = s.key := by cases F <;> rfl
@[simp] theorem after_klen : (F.after d p s).klen = s.klen := by cases F <;> rfl

/-- The later output and position replace the earlier ones. -/
@[simp] theorem after_after : F.after e q (F.after d p s) = F.after e q s := by cases F <;> rfl

theorem after_with_dout : { F.after d p s with dout := e } = F.after e p s := by cases F <;> rfl

/-- The mask reads KEY and KLEN and nothing else (R164, R174). -/
theorem mask_congr {s t : State} (hkey : t.key = s.key) (hklen : t.klen = s.klen) : F.mask t = F.mask s := by
  have hbyte : keyByteAt t = keyByteAt s := by
    funext p
    rw [keyByteAt, keyByteAt, keyIndex, keyIndex, hkey, hklen]
  funext p
  cases F with
  | cipher => rw [mask, ksbit, ksbit, hbyte]
  | diffuser => rw [mask, dbitmask_eq, dbitmask_eq, hbyte]

@[simp] theorem mask_after : F.mask (F.after d p s) = F.mask s := F.mask_congr (F.after_key d p s) (F.after_klen d p s)

end After

end XorFamily

/-- The state holds a key of legal length (R35). -/
structure State.HasKey (s : State) : Prop where
  ne_zero : s.klen ≠ 0
  le : s.klen.toNat ≤ 128

theorem State.HasKey.of_klen {s t : State} (hs : s.HasKey) (h : t.klen = s.klen) : t.HasKey :=
  ⟨h ▸ hs.ne_zero, h ▸ hs.le⟩

/-! ## One command of a family -/

namespace XorFamily

variable (F : XorFamily) {s : State}

theorem exec_bit (hs : s.HasKey) (b : BitVec 1) :
    exec (F.bit b) s = .next (F.after (bitByte (b.getLsbD 0 ^^ F.mask s (F.pos s))) (posAt (F.pos s) 1) s) := by
  cases F <;> exact withKey_ok hs.ne_zero hs.le _ _ _

theorem exec_byte (hs : s.HasKey) (x : Byte) :
    exec (F.byte x) s = .next (F.after (xorByte (F.mask s) (F.pos s) x) (posAt (F.pos s) 8) s) := by
  cases F <;> exact withKey_ok hs.ne_zero hs.le _ _ _

/-- Without a key either command raises E_NOKEY with its own word (R157, R159, R172, R173). -/
theorem exec_bit_noKey (h : s.klen = 0) (b : BitVec 1) : exec (F.bit b) s = .next (raiseError .noKey s.cw s) := by
  cases F <;> exact withKey_noKey h _ _ _

theorem exec_byte_noKey (h : s.klen = 0) (x : Byte) : exec (F.byte x) s = .next (raiseError .noKey s.cw s) := by
  cases F <;> exact withKey_noKey h _ _ _

/-! ## A pass, bit by bit -/

theorem passBits_cons (hs : s.HasKey) (b : Bool) (bs : List Bool) :
    passBits F.bit (b :: bs) s =
      (passBits F.bit bs (F.after (bitByte (b ^^ F.mask s (F.pos s))) (posAt (F.pos s) 1) s)).map
        fun r => ((b ^^ F.mask s (F.pos s)) :: r.1, r.2) := by
  have hb : (BitVec.ofBool b).getLsbD 0 = b := by cases b <;> rfl
  have hout (o : Bool) : (bitByte o).getLsbD 0 = o := by cases o <;> rfl
  simp only [passBits, F.exec_bit hs, hb, after_dout, hout]

/-- A pass over at least one bit: each is XORed with the mask bit of its own position, and the counter moves on by their
number. -/
theorem passBits_range (f : Nat → Bool) (n : Nat) (hs : s.HasKey) :
    ∃ d, passBits F.bit ((List.range (n + 1)).map f) s =
      some ((List.range (n + 1)).map fun k => f k ^^ F.mask s (posAt (F.pos s) k),
        F.after d (posAt (F.pos s) (n + 1)) s) := by
  induction n generalizing f s with
  | zero =>
    refine ⟨bitByte (f 0 ^^ F.mask s (F.pos s)), (F.passBits_cons hs (f 0) []).trans ?_⟩
    simp [passBits]
  | succ n ih =>
    obtain ⟨d, htail⟩ := ih (fun k => f (k + 1))
      (hs.of_klen (F.after_klen (bitByte (f 0 ^^ F.mask s (F.pos s))) (posAt (F.pos s) 1) s))
    refine ⟨d, ?_⟩
    rw [List.range_succ_eq_map, List.map_cons, List.map_map, F.passBits_cons hs]
    simp [Function.comp_def, htail, posAt_posAt, Nat.add_comm]

/-- A byte is eight bits, bit 7 first: the same state but for DOUT, whose bits are the eight outputs in that order
(R159, R173). -/
theorem byte_is_eight_bits (hs : s.HasKey) (x : Byte) :
    ∃ u, passBits F.bit ((List.range 8).map fun k => x.getLsbD (7 - k)) s =
        some ((List.range 8).map fun k => (xorByte (F.mask s) (F.pos s) x).getLsbD (7 - k), u) ∧
      F.after (xorByte (F.mask s) (F.pos s) x) (posAt (F.pos s) 8) s =
        { u with dout := xorByte (F.mask s) (F.pos s) x } := by
  have hbits : ((List.range 8).map fun k => (xorByte (F.mask s) (F.pos s) x).getLsbD (7 - k)) =
      (List.range 8).map fun k => x.getLsbD (7 - k) ^^ F.mask s (posAt (F.pos s) k) :=
    List.map_congr_left fun k hk => xorByte_getLsbD _ _ _ (List.mem_range.1 hk)
  obtain ⟨d, hpass⟩ := F.passBits_range (fun k => x.getLsbD (7 - k)) 7 hs
  rw [hbits]
  exact ⟨_, hpass, (F.after_with_dout _ _ _ _).symm⟩

end XorFamily

/-! ## A pass, byte by byte -/

/-- The outputs of a pass over the message bytes from position `p` on. -/
def xorBytes (mask : BitVec 64 → Bool) : BitVec 64 → List Byte → List Byte
  | _, [] => []
  | p, x :: xs => xorByte mask p x :: xorBytes mask (posAt p 8) xs

theorem xorBytes_length (mask : BitVec 64 → Bool) (p : BitVec 64) (msg : List Byte) :
    (xorBytes mask p msg).length = msg.length := by
  induction msg generalizing p with
  | nil => rfl
  | cons x xs ih => rw [xorBytes, List.length_cons, List.length_cons, ih]

/-- XOR is its own inverse, bit for bit (R162). -/
theorem xorByte_xorByte (mask : BitVec 64 → Bool) (p : BitVec 64) (x : Byte) :
    xorByte mask p (xorByte mask p x) = x := by
  apply byte_ext
  intro k hk
  rw [xorByte_getLsbD _ _ _ hk, xorByte_getLsbD _ _ _ hk, Bool.xor_assoc, Bool.xor_self, Bool.xor_false]

theorem xorBytes_xorBytes (mask : BitVec 64 → Bool) (p : BitVec 64) (msg : List Byte) :
    xorBytes mask p (xorBytes mask p msg) = msg := by
  induction msg generalizing p with
  | nil => rfl
  | cons x xs ih => rw [xorBytes, xorBytes, xorByte_xorByte, ih]

namespace XorFamily

variable (F : XorFamily) {s : State}

/-- A pass completes on every message, and moves the counter on by eight per byte (R163). -/
theorem passBytes_eq (msg : List Byte) (hs : s.HasKey) :
    ∃ t, passBytes F.byte msg s = some (xorBytes (F.mask s) (F.pos s) msg, t) ∧
      F.pos t = posAt (F.pos s) (8 * msg.length) := by
  induction msg generalizing s with
  | nil => exact ⟨s, rfl, (posAt_zero _).symm⟩
  | cons x xs ih =>
    obtain ⟨t, hpass, hpos⟩ :=
      ih (hs.of_klen (F.after_klen (xorByte (F.mask s) (F.pos s) x) (posAt (F.pos s) 8) s))
    rw [mask_after, after_pos] at hpass
    rw [after_pos, posAt_posAt] at hpos
    refine ⟨t, ?_, ?_⟩
    · simp only [passBytes, F.exec_byte hs, hpass, after_dout, Option.map_some, xorBytes]
    · rw [hpos, List.length_cons, Nat.mul_succ, Nat.add_comm]

/-- A second pass over the outputs, under the same KEY and KLEN and from the same position, gives the message back
(R162, R174). -/
theorem pass_undoes_itself (msg : List Byte) (hs : s.HasKey) :
    ∃ out t, passBytes F.byte msg s = some (out, t) ∧ out.length = msg.length ∧
      (F.pos t).toNat = ((F.pos s).toNat + 8 * msg.length) % 2 ^ 64 ∧
      ∀ s' : State, s'.key = s.key → s'.klen = s.klen → F.pos s' = F.pos s →
        ∃ u, passBytes F.byte out s' = some (msg, u) := by
  obtain ⟨t, hpass, hpos⟩ := F.passBytes_eq msg hs
  refine ⟨_, t, hpass, xorBytes_length _ _ _, by rw [hpos, posAt_toNat], fun s' hkey hklen hpos' => ?_⟩
  obtain ⟨u, hback, -⟩ := F.passBytes_eq (xorBytes (F.mask s) (F.pos s) msg) (hs.of_klen hklen)
  rw [F.mask_congr hkey hklen, hpos', xorBytes_xorBytes] at hback
  exact ⟨u, hback⟩

end XorFamily

/-! ## The stream cipher -/

/-- The reduction modulo 2 leaves the lowest bits of the two operands (R158). -/
theorem bitByte_xor_toNat (b : BitVec 1) (y : Byte) :
    (bitByte (b.getLsbD 0 ^^ y.getLsbD 0)).toNat = (b.toNat ^^^ y.toNat) % 2 := by
  rw [bitByte_toNat, BitVec.getLsbD, BitVec.getLsbD, ← Nat.testBit_xor, Nat.toNat_testBit, Nat.pow_zero, Nat.div_one]

/-- The key-stream bit at the `k`-th position from `p` is bit 0 of its key byte (R155). -/
theorem ksbit_posAt (s : State) (p : BitVec 64) (k : Nat) :
    ksbit s (posAt p k) = (s.key.read ((p.toNat + k) % 2 ^ 64 % s.klen.toNat)).getLsbD 0 := by
  rw [ksbit, keyByteAt, keyIndex, posAt_toNat]

/-! ## The obligations -/

/-- Settles O52: the bit stored is the lowest bit of the XOR, and without a key the command ends in the error action. -/
theorem sbitXorsTheKeyStreamBit : Obligations.SbitXorsTheKeyStreamBit := by
  have hop : Mnemonic.sbit.op.setWidth 32 <<< 24 = (0x21000000 : CmdWord) := by decide
  refine fun b => ⟨encode_of_operand (i := .sbit b) hop rfl, fun s => ⟨fun h0 hle => ?_, fun h0 => ?_⟩⟩
  · exact ⟨_, XorFamily.cipher.exec_bit ⟨h0, hle⟩ b, rfl, bitByte_xor_toNat b _, posAt_toNat s.pos 1⟩
  · exact (XorFamily.cipher.exec_bit_noKey h0 b).trans (congrArg Host.Outcome.next (raiseError_eq _ _ _))

/-- Settles O53: the bits of SXOR's output, and its state, are those of the pass of eight SBITs. -/
theorem sxorIsEightSbits : Obligations.SxorIsEightSbits := by
  have hop : Mnemonic.sxor.op.setWidth 32 <<< 24 = (0x22000000 : CmdWord) := by decide
  refine fun x => ⟨encode_of_operand (i := .sxor x) hop rfl, fun s => ⟨fun h0 hle => ?_, fun h0 => ?_⟩⟩
  · obtain ⟨u, hbits, hstate⟩ := XorFamily.cipher.byte_is_eight_bits ⟨h0, hle⟩ x
    refine ⟨_, u, XorFamily.cipher.exec_byte ⟨h0, hle⟩ x, rfl, posAt_toNat s.pos 8, fun k hk => ?_, hbits, hstate⟩
    exact (xorByte_getLsbD _ _ _ hk).trans (congrArg _ (ksbit_posAt s s.pos k))
  · exact (XorFamily.cipher.exec_byte_noKey h0 x).trans (congrArg Host.Outcome.next (raiseError_eq _ _ _))

/-- Settles O54: SCHK has no effect but its test of POS. -/
theorem schkChecksTheLength : Obligations.SchkChecksTheLength := by
  refine ⟨by decide, fun s => ⟨fun h => ?_, fun h => ?_⟩⟩
  · exact congrArg Host.Outcome.next (completeUnless_good (not_not.2 h) _ _ _)
  · exact congrArg Host.Outcome.next ((completeUnless_bad h _ _ _).trans (raiseError_eq _ _ _))

/-- Settles O55: the cipher is one of the two families of which it holds. -/
theorem cipherPassUndoesItself : Obligations.CipherPassUndoesItself :=
  fun _ msg h0 hle => XorFamily.cipher.pass_undoes_itself msg ⟨h0, hle⟩

end Sys2Proof.Machine
end

section
/-! PROOFS. The statements of spec/46_block_diffuser.md: the window and its mask bit (R170), DBIT (R172), DXOR as eight
DBITs (R173), that a pass undoes itself (R174, R176), and that diffuser and cipher do not disturb each other (R175). -/

namespace Sys2Proof.Machine

/-! ## The window -/

theorem windowValue_le (s : State) (p : BitVec 64) : windowValue s p ≤ 7 := by
  have h (a b c : Bool) : 4 * a.toNat + 2 * b.toNat + c.toNat ≤ 7 := by
    have := a.toNat_le
    have := b.toNat_le
    have := c.toNat_le
    omega
  exact h _ _ _

theorem dbitmask_toNat (s : State) (p : BitVec 64) : (dbitmask s p).toNat = windowValue s p % 2 := by
  rw [dbitmask]
  rcases Nat.mod_two_eq_zero_or_one (windowValue s p) with h | h <;> rw [h] <;> rfl

/-- The mask bit in plain bit numbering (R170). -/
theorem dbitmask_eq_getLsbD (s : State) (p : BitVec 64) :
    dbitmask s p = (s.key.read (p.toNat % s.klen.toNat)).getLsbD (7 - (p.toNat + 1) % 8) := by
  rw [dbitmask_eq, msbBit, keyByteAt, keyIndex, Nat.mod_add_mod]

/-- The mask bit at the `k`-th position from `p` (R173). -/
theorem dbitmask_posAt (s : State) (p : BitVec 64) (k : Nat) :
    dbitmask s (posAt p k) = (s.key.read ((p.toNat + k) % 2 ^ 64 % s.klen.toNat)).getLsbD
      (7 - ((p.toNat + k) % 2 ^ 64 + 1) % 8) := by
  rw [dbitmask_eq_getLsbD, posAt_toNat]

/-! ## A command of one family after a command of the other -/

theorem keyInRange_congr {s t : State} (hklen : t.klen = s.klen) : keyInRange t = keyInRange s := by
  funext p n
  rw [Bool.eq_iff_iff, keyInRange_iff, keyInRange_iff, hklen]

/-- A command other than KLOAD and DERIVE leaves the key alone, whether it completes or raises its error (R35, R40). -/
theorem exec_key {i : Instr} {s t : State} (hi : i.mnemonic ∉ [.kload, .derive]) (h : exec i s = .next t) :
    t.key = s.key ∧ t.klen = s.klen := by
  rcases exec_next h with ⟨e, -, rfl⟩ | rfl
  · exact ⟨raiseError_key e s.cw s, raiseError_klen e s.cw s⟩
  · exact effect_key s hi

namespace XorFamily

/-- The names of the family's two XOR commands. -/
def mnemonics : XorFamily → List Mnemonic
  | cipher => [.sbit, .sxor]
  | diffuser => [.dbit, .dxor]

variable (F : XorFamily) {c : Instr}

theorem eq_bit_or_byte (hc : c.mnemonic ∈ F.mnemonics) : (∃ b, c = F.bit b) ∨ ∃ x, c = F.byte x := by
  cases F <;> cases c
  case cipher.sbit b | diffuser.dbit b => exact Or.inl ⟨b, rfl⟩
  case cipher.sxor x | diffuser.dxor x => exact Or.inr ⟨x, rfl⟩
  all_goals simp [mnemonics, Instr.mnemonic] at hc

/-- With a key, of legal length or not, a command of the family reads KEY, KLEN and its own counter, and nothing else of
the state: what it stores and whether it stops follow from the mask, the position and the key's length (R175). -/
theorem exec_of_key (hc : c.mnemonic ∈ F.mnemonics) :
    ∃ (n : Nat) (out : (BitVec 64 → Bool) → BitVec 64 → Byte), ∀ s : State, s.klen ≠ 0 →
      exec c s = if keyInRange s (F.pos s) n then
        .next (F.after (out (F.mask s) (F.pos s)) (posAt (F.pos s) n) s) else .fault .keyIndex := by
  rcases F.eq_bit_or_byte hc with ⟨b, rfl⟩ | ⟨x, rfl⟩
  · exact ⟨1, fun mask p => bitByte (b.getLsbD 0 ^^ mask p), fun s h0 => by cases F <;> exact if_neg h0⟩
  · exact ⟨8, fun mask p => xorByte mask p x, fun s h0 => by cases F <;> exact if_neg h0⟩

/-- In two states that share the key and the family's counter a command of the family does the same (R175). -/
theorem exec_congr {s t u : State} (hc : c.mnemonic ∈ F.mnemonics) (h0 : s.klen ≠ 0) (hkey : t.key = s.key)
    (hklen : t.klen = s.klen) (hpos : F.pos t = F.pos s) (h : exec c s = .next u) :
    ∃ v, exec c t = .next v ∧ v.dout = u.dout ∧ F.pos v = F.pos u := by
  obtain ⟨n, out, hexec⟩ := F.exec_of_key hc
  have hexect := hexec t (hklen ▸ h0)
  rw [F.mask_congr hkey hklen, keyInRange_congr hklen, hpos] at hexect
  rw [hexec s h0] at h
  split_ifs at h with hin
  cases h
  exact ⟨_, hexect.trans (if_pos hin), by simp, by simp⟩

end XorFamily

/-! ## The obligations -/

/-- Settles O56: the three bits are those of the key byte, and the last of them decides the value's parity. -/
theorem windowMaskIsTheNextBit : Obligations.WindowMaskIsTheNextBit := by
  intro s p kb hkb
  obtain rfl : kb = msbBit (keyByteAt s p) := funext hkb
  exact ⟨rfl, windowValue_le s p, dbitmask_toNat s p, dbitmask_eq_getLsbD s p⟩

/-- Settles O57: the bit stored is XORed with the mask bit, and without a key the command ends in the error action. -/
theorem dbitXorsTheWindowBit : Obligations.DbitXorsTheWindowBit := by
  have hop : Mnemonic.dbit.op.setWidth 32 <<< 24 = (0x29000000 : CmdWord) := by decide
  refine fun b => ⟨encode_of_operand (i := .dbit b) hop rfl, fun s => ⟨fun h0 hle => ?_, fun h0 => ?_⟩⟩
  · refine ⟨_, XorFamily.diffuser.exec_bit ⟨h0, hle⟩ b, rfl, ?_, posAt_toNat s.dpos 1⟩
    rw [← dbitmask_eq_getLsbD]
    exact bitByte_toNat _
  · exact (XorFamily.diffuser.exec_bit_noKey h0 b).trans (congrArg Host.Outcome.next (raiseError_eq _ _ _))

/-- Settles O58: the bits of DXOR's output, and its state, are those of the pass of eight DBITs. -/
theorem dxorIsEightDbits : Obligations.DxorIsEightDbits := by
  have hop : Mnemonic.dxor.op.setWidth 32 <<< 24 = (0x2A000000 : CmdWord) := by decide
  refine fun x => ⟨encode_of_operand (i := .dxor x) hop rfl, fun s => ⟨fun h0 hle => ?_, fun h0 => ?_⟩⟩
  · obtain ⟨u, hbits, hstate⟩ := XorFamily.diffuser.byte_is_eight_bits ⟨h0, hle⟩ x
    refine ⟨_, u, XorFamily.diffuser.exec_byte ⟨h0, hle⟩ x, rfl, posAt_toNat s.dpos 8, fun k hk => ?_, hbits, hstate⟩
    exact (xorByte_getLsbD _ _ _ hk).trans (congrArg _ (dbitmask_posAt s s.dpos k))
  · exact (XorFamily.diffuser.exec_byte_noKey h0 x).trans (congrArg Host.Outcome.next (raiseError_eq _ _ _))

/-- Settles O59: the diffuser is one of the two families of which it holds. -/
theorem diffuserPassUndoesItself : Obligations.DiffuserPassUndoesItself :=
  fun _ block h0 hle => XorFamily.diffuser.pass_undoes_itself block ⟨h0, hle⟩

/-- Settles O60: the first command writes neither the key nor the second's counter, and the second reads nothing else. -/
theorem cipherAndDiffuserAreIndependent : Obligations.CipherAndDiffuserAreIndependent := by
  have hdiffuser : ∀ m : Mnemonic, m ∈ [.dstart, .dbit, .dxor] → m ∉ [.kload, .derive] ∧ m ∉ [.sstart, .sbit, .sxor] := by
    decide
  have hcipher : ∀ m : Mnemonic, m ∈ [.sstart, .sbit, .sxor, .schk] →
      m ∉ [.kload, .derive] ∧ m ∉ [.dstart, .dbit, .dxor] := by decide
  refine ⟨fun s t u d c hd hc h0 ht hu => ?_, fun s t u d c hd hc h0 ht hu => ?_⟩
  · obtain ⟨hnokey, hnopos⟩ := hdiffuser _ hd
    obtain ⟨hkey, hklen⟩ := exec_key hnokey ht
    obtain ⟨-, -, -, -, -, -, hpos, -, -⟩ := onlyTheNamedCommandsWrite d s t ht
    exact XorFamily.cipher.exec_congr hc h0 hkey hklen (hpos hnopos) hu
  · obtain ⟨hnokey, hnopos⟩ := hcipher _ hd
    obtain ⟨hkey, hklen⟩ := exec_key hnokey ht
    obtain ⟨-, -, -, -, -, -, -, hpos, -⟩ := onlyTheNamedCommandsWrite d s t ht
    exact XorFamily.diffuser.exec_congr hc h0 hkey hklen (hpos hnopos) hu

end Sys2Proof.Machine
end

section
/-! PROOFS. The statements of spec/60_exceptions.md: the error action (R188) and the way out of a pending error (R191,
R192). -/

namespace Sys2Proof.Machine

/-- With no error pending the record takes code and datum (R188). -/
theorem recordError_of_clear {s : State} (h : s.errcode = 0) (e : ErrorCode) (w : BitVec 32) :
    recordError e w s = { s with errcode := e.code, errinfo := w } := if_pos h

/-- With an error pending the new code and datum are dropped (R188). -/
theorem recordError_of_pending {s : State} (h : s.errcode ≠ 0) (e : ErrorCode) (w : BitVec 32) :
    recordError e w s = s := if_neg h

/-- A write of 6 to STATUS clears DONE and the error record, BUSY or not (R67, R191). -/
theorem portWrite_status_six (s : State) :
    portWrite 0x01 6 s = { s with done := false, errcode := 0, errinfo := 0 } :=
  (portWrite_status 6 s).trans (writeStatus_eq 6 s)

/-! ## The obligations -/

/-- Settles O26: both error actions are the record of the error, and `raiseError` clears BUSY besides. -/
theorem firstErrorWins : Obligations.FirstErrorWins := by
  intro e info idx s
  refine ⟨fun h => ?_, fun h => ?_, fun h => ?_, fun h => ?_⟩
  · rw [raiseError, recordError_of_clear h]
  · rw [raiseError, recordError_of_pending h]
  · rw [raiseBusyWrite, recordError_of_clear h, BitVec.ofNat_toNat]
    rfl
  · exact recordError_of_pending h _ _

/-- Settles O28: the write to STATUS leaves no error and BUSY = 0, which is the case in which CMD accepts (O24). -/
theorem everyErrorCanBeLeft : Obligations.EveryErrorCanBeLeft := by
  intro s v hbusy
  refine ⟨portWrite_status_six s, ?_⟩
  rw [portWrite_status_six]
  obtain ⟨-, -, haccept⟩ :=
    cmdWriteIsDroppedRefusedOrAccepted { s with done := false, errcode := 0, errinfo := 0 } v
  exact haccept hbusy rfl

end Sys2Proof.Machine
end
